-- ==== Sys2Proof/Word.lean ====
section
/-! DEFINITION. The two word types of the hardware: the byte (00_scope.md section 5.1) and the 32-bit command
word (30_encoding.md rule R32). -/

namespace Sys2Proof

/-- A byte: an unsigned integer in 0..255 (00_scope.md section 5.1), a character code of `din` (R40) and an item of
`dout` (R35). -/
abbrev Byte := BitVec 8

/-- A command word, bits numbered 31 down to 0 (R32). -/
abbrev Word := BitVec 32

end Sys2Proof
end

