-- ==== Sys2Proof/Syntax.lean ====
section
/-! DEFINITION. The commands as data: one constructor of `Instr` for each of the 27 operations of 30_encoding.md
rule R37 (spec/opcode_table.json), with the operands of its format (rule R34). -/

namespace Sys2Proof

/-- The two value registers (R9); in a command, the register its bit `r` names as self (R33). -/
inductive Reg where
  /-- `r = 0`: self is A, other is B. -/
  | A
  /-- `r = 1`: self is B, other is A. -/
  | B
  deriving DecidableEq, Repr

/-- A decoded command. `r` is self (R33); `k` and `pos` are the 24-bit count of format K, `idx` the 16-bit byte index
and `v8` the byte of format X (R34). A count and an index are numbers, so their ranges are checked by
`Instr.wellFormed` (log 16). The character sequence of HEXIN stands in no word (R40): it is on the input port,
`State.din`. -/
inductive Instr where
  /-- R44: cross-width copy. -/
  | mov (r : Reg)
  /-- R47: flag is X == Y. -/
  | cmpeq (r : Reg)
  /-- R48: flag is X < Y. -/
  | cmplt (r : Reg)
  /-- R49: flag is X > Y. -/
  | cmpgt (r : Reg)
  /-- R50: flag is X <= Y. -/
  | cmple (r : Reg)
  /-- R51: flag is X >= Y. -/
  | cmpge (r : Reg)
  /-- R55: right shift by `k` bits. -/
  | shr (r : Reg) (k : Nat)
  /-- R56: left shift by `k` bits. -/
  | shl (r : Reg) (k : Nat)
  /-- R61: addition. -/
  | add (r : Reg)
  /-- R64: subtraction. -/
  | sub (r : Reg)
  /-- R68: plain multiplication. -/
  | mul (r : Reg)
  /-- R74: quotient. -/
  | div (r : Reg)
  /-- R78: remainder. -/
  | mod (r : Reg)
  /-- R80: bitwise and, of equal widths only. -/
  | and (r : Reg)
  /-- R81: bitwise or, of equal widths only. -/
  | or (r : Reg)
  /-- R82: bitwise exclusive or, of equal widths only. -/
  | xor (r : Reg)
  /-- R83: bitwise not. -/
  | not (r : Reg)
  /-- R86: parse the character sequence `din`. -/
  | hexin (r : Reg)
  /-- R87: serialize. -/
  | hexout (r : Reg)
  /-- R88: serialize with the marker `0x`. -/
  | hexoutx (r : Reg)
  /-- R90: one bit. -/
  | getbit (r : Reg) (pos : Nat)
  /-- R91: one plus the position of the highest set bit. -/
  | rank (r : Reg)
  /-- R93: default construction. -/
  | clr (r : Reg)
  /-- R94: read one byte. -/
  | rdb (r : Reg) (idx : Nat)
  /-- R95: write one byte. -/
  | wrb (r : Reg) (idx : Nat) (v8 : Byte)
  /-- R96: all bytes. -/
  | dump (r : Reg)
  /-- R97: all bits. -/
  | bits (r : Reg)
  deriving DecidableEq, Repr

/-- The register a command names as self (R33). -/
def Instr.self : Instr → Reg
  | .mov r | .cmpeq r | .cmplt r | .cmpgt r | .cmple r | .cmpge r | .shr r _ | .shl r _ | .add r | .sub r
  | .mul r | .div r | .mod r | .and r | .or r | .xor r | .not r | .hexin r | .hexout r | .hexoutx r
  | .getbit r _ | .rank r | .clr r | .rdb r _ | .wrb r _ _ | .dump r | .bits r => r

/-- The register a command does not name, its other (R33). -/
def Reg.other : Reg → Reg
  | .A => .B
  | .B => .A

end Sys2Proof
end

