-- ==== Sys2Proof/WellFormed.lean ====
section
/-! DEFINITION. Which instructions a command word can carry (30_encoding.md rule R34), and which of them exist in an
instance of given widths (45_bitwise.md rule R84). -/

namespace Sys2Proof

/-- The operands fit their fields (R34): a count below 2^24, an index below 2^16. -/
def Instr.wellFormed : Instr → Bool
  | .mov _ | .cmpeq _ | .cmplt _ | .cmpgt _ | .cmple _ | .cmpge _ => true
  | .shr _ k | .shl _ k | .getbit _ k => decide (k < 16777216)
  | .add _ | .sub _ | .mul _ | .div _ | .mod _ => true
  | .and _ | .or _ | .xor _ | .not _ => true
  | .hexin _ | .hexout _ | .hexoutx _ => true
  | .rank _ | .clr _ | .dump _ | .bits _ => true
  | .rdb _ idx | .wrb _ idx _ => decide (idx < 65536)

/-- The operation exists in an instance with widths `S` and `T` (R38 case (d), R84): AND, OR and XOR need equal
widths, every other operation exists in every instance. -/
def Instr.existsIn (S T : Nat) : Instr → Bool
  | .and _ | .or _ | .xor _ => S == T
  | .mov _ | .cmpeq _ | .cmplt _ | .cmpgt _ | .cmple _ | .cmpge _ => true
  | .shr _ _ | .shl _ _ | .add _ | .sub _ | .mul _ | .div _ | .mod _ | .not _ => true
  | .hexin _ | .hexout _ | .hexoutx _ | .getbit _ _ | .rank _ => true
  | .clr _ | .rdb _ _ | .wrb _ _ _ | .dump _ | .bits _ => true

end Sys2Proof
end

