-- ==== Sys2Proof/Decode.lean ====
section
/-! DEFINITION. The decoder of command words, total on all 2^32 of them (30_encoding.md rules R32 to R38), and the
encoder written from the same tables. Case (d) of rule R38 depends on the instance and not on the word: it is the
meaning of AND, OR and XOR that checks the widths (45_bitwise.md rules R80 to R82). -/

namespace Sys2Proof

/-- `cmd[hi:lo]`, the unsigned integer made of bits hi down to lo (00_scope.md section 5.2). -/
def cmdBits (w : Word) (hi lo : Nat) : Nat := w.toNat / 2 ^ lo % 2 ^ (hi + 1 - lo)

/-- The field `r` (R32, R33). -/
def fieldSelf (w : Word) : Reg := if cmdBits w 31 31 = 0 then .A else .B

/-- The field `op` (R32). -/
def fieldOp (w : Word) : Nat := cmdBits w 30 24

/-- The field `imm24`, the count of format K (R32, R34). -/
def fieldImm (w : Word) : Nat := cmdBits w 23 0

/-- The field `idx` of format X (R34). -/
def fieldIdx (w : Word) : Nat := cmdBits w 23 8

/-- The field `v8` of format X (R34). -/
def fieldV8 (w : Word) : Byte := BitVec.ofNat 8 (cmdBits w 7 0)

/-- Why the decoder refuses a word, by the cases of R38. The names are the model's (log 17). -/
inductive Illegal where
  /-- R38 (a): `op` is none of the 27 codes of R37. -/
  | unassignedOpcode
  /-- R38 (b): a command of format N with `imm24` not 0. -/
  | nonzeroImmediate
  /-- R38 (c): RDB with `cmd[7:0]` not 0. -/
  | nonzeroByteField
  deriving DecidableEq, Repr

/-- Format N: all of `imm24` must be 0 (R34). -/
def formatN (w : Word) (i : Instr) : Except Illegal Instr :=
  if fieldImm w = 0 then .ok i else .error .nonzeroImmediate

/-- Format X of RDB: `cmd[7:0]` must be 0 (R34). -/
def formatX0 (w : Word) (i : Instr) : Except Illegal Instr :=
  if cmdBits w 7 0 = 0 then .ok i else .error .nonzeroByteField

/-- The decoder (R37): look `op` up, then check the must-be-zero bits of the format. -/
def decode (w : Word) : Except Illegal Instr :=
  let r := fieldSelf w
  match fieldOp w with
  | 0x01 => formatN w (.mov r)
  | 0x02 => formatN w (.cmpeq r)
  | 0x03 => formatN w (.cmplt r)
  | 0x04 => formatN w (.cmpgt r)
  | 0x05 => formatN w (.cmple r)
  | 0x06 => formatN w (.cmpge r)
  | 0x08 => .ok (.shr r (fieldImm w))
  | 0x09 => .ok (.shl r (fieldImm w))
  | 0x10 => formatN w (.add r)
  | 0x11 => formatN w (.sub r)
  | 0x18 => formatN w (.mul r)
  | 0x20 => formatN w (.div r)
  | 0x21 => formatN w (.mod r)
  | 0x28 => formatN w (.and r)
  | 0x29 => formatN w (.or r)
  | 0x2A => formatN w (.xor r)
  | 0x2B => formatN w (.not r)
  | 0x30 => formatN w (.hexin r)
  | 0x31 => formatN w (.hexout r)
  | 0x32 => formatN w (.hexoutx r)
  | 0x38 => .ok (.getbit r (fieldImm w))
  | 0x39 => formatN w (.rank r)
  | 0x40 => formatN w (.clr r)
  | 0x41 => formatX0 w (.rdb r (fieldIdx w))
  | 0x42 => .ok (.wrb r (fieldIdx w) (fieldV8 w))
  | 0x43 => formatN w (.dump r)
  | 0x44 => formatN w (.bits r)
  | _ => .error .unassignedOpcode

/-- The host's question: the instruction the decoder reads from a command word whose bits are `w`, of which the
opcode table gives `nbits` (the bits above are 0). -/
def decodeTableWord (nbits w : Nat) : Option Instr :=
  (decode (BitVec.ofNat 32 (w % 2 ^ nbits))).toOption

/-- The code of an operation in the opcode map (R37). -/
def Instr.opcode : Instr → Nat
  | .mov _ => 0x01
  | .cmpeq _ => 0x02
  | .cmplt _ => 0x03
  | .cmpgt _ => 0x04
  | .cmple _ => 0x05
  | .cmpge _ => 0x06
  | .shr _ _ => 0x08
  | .shl _ _ => 0x09
  | .add _ => 0x10
  | .sub _ => 0x11
  | .mul _ => 0x18
  | .div _ => 0x20
  | .mod _ => 0x21
  | .and _ => 0x28
  | .or _ => 0x29
  | .xor _ => 0x2A
  | .not _ => 0x2B
  | .hexin _ => 0x30
  | .hexout _ => 0x31
  | .hexoutx _ => 0x32
  | .getbit _ _ => 0x38
  | .rank _ => 0x39
  | .clr _ => 0x40
  | .rdb _ _ => 0x41
  | .wrb _ _ _ => 0x42
  | .dump _ => 0x43
  | .bits _ => 0x44

/-- The field `imm24` of a command, by its format (R34). -/
def Instr.imm : Instr → Nat
  | .shr _ k | .shl _ k | .getbit _ k => k
  | .rdb _ idx => idx * 256
  | .wrb _ idx v8 => idx * 256 + v8.toNat
  | .mov _ | .cmpeq _ | .cmplt _ | .cmpgt _ | .cmple _ | .cmpge _ | .add _ | .sub _ | .mul _ | .div _ | .mod _
  | .and _ | .or _ | .xor _ | .not _ | .hexin _ | .hexout _ | .hexoutx _ | .rank _ | .clr _ | .dump _
  | .bits _ => 0

/-- The bit `r` of a command (R33). -/
def Reg.code : Reg → Nat
  | .A => 0
  | .B => 1

/-- The encoder: the command word of a well-formed instruction (R32). -/
def encode (i : Instr) : Word :=
  BitVec.ofNat 32 (i.self.code * 2 ^ 31 + i.opcode * 2 ^ 24 + i.imm)

end Sys2Proof
end

