-- ==== Sys2Proof/Config.lean ====
section
/-! DEFINITION. What one elaborated unit fixes: the widths S and T (00_scope.md rule R5) of the instance that
`State.reset` resets, and the bounds of the interface (rule R6). The step itself reads no width from here: the
width of a register is the length of its byte sequence, so every statement over a state speaks of every instance. -/

namespace Sys2Proof.Config

/-- The byte width S of register A in the instance that `State.reset` resets. DESIGN CHOICE, unsafe (log 1): the
spec leaves S a parameter in 1..65535 (R5, D4); four bytes is a width of the source's own examples. -/
def S : Nat := 4

/-- The byte width T of register B in the instance that `State.reset` resets. DESIGN CHOICE, unsafe (log 1): equal
to `S`, so that AND, OR and XOR exist in that instance (R84). -/
def T : Nat := 4

/-- The largest width of a register (R5, D4). -/
def maxWidth : Nat := 65535

/-- The largest length of the character sequence `din` of a command (R6, R40): 2^24 - 1. -/
def maxDin : Nat := 16777215

end Sys2Proof.Config
end

