-- ==== Sys2Proof/Machine/State.lean ====
section
/-! DEFINITION. The state of one instance as plain data: the two value registers, which are the whole architectural
state (10_state.md rule R9), and the command port through which a host drives the unit (commands in, response out),
which the spec calls inputs and outputs and no state (rule R19). -/

namespace Sys2Proof.Machine

/-- A command as the host issues it (R32, R40): the command word and the character sequence `din`. -/
structure Command where
  /-- The 32-bit command word. -/
  word : Word
  /-- The characters `din[0] ..`, sampled by HEXIN only. -/
  din : List Byte
  deriving DecidableEq, Repr

/-- The status of a response (R36). Codes 5 to 7 are never produced, so there are five values (93 U6, log 15). -/
inductive Status where
  /-- Code 0: the command did what its rule says. -/
  | ok
  /-- Code 1: HEXIN, a wrong length or a bad character. -/
  | parseError
  /-- Code 2: RDB, WRB, GETBIT, an index or position outside the value. -/
  | rangeError
  /-- Code 3: DIV, MOD, other is zero. -/
  | divideByZeroError
  /-- Code 4: the word is no legal encoding for this instance. -/
  | illegalCommand
  deriving DecidableEq, Repr

/-- The response of a command (R35). -/
structure Response where
  /-- 3 bits, `Status.code`. -/
  status : Status
  /-- 1 bit. -/
  flag : Bool
  /-- 24 bits, unsigned. -/
  val : BitVec 24
  /-- A finite sequence of 8-bit items, first item first. -/
  dout : List Byte
  deriving DecidableEq, Repr

/-- The state. `A` and `B` are the registers of the spec (R9), each a sequence of bytes, index 0 the most significant
(R22); the widths S and T of the instance are the lengths of the two, which no step changes (R10). `port`, `din` and
`resp` are the model's own (log 2): the host's side of the command port. -/
structure State where
  /-- Value register A, S bytes (R9). -/
  A : List Byte
  /-- Value register B, T bytes (R9). -/
  B : List Byte
  /-- The commands the host issues from here on, the next one first (R28, R119). -/
  port : List Command
  /-- The character sequence that came with the command in execution (R40). -/
  din : List Byte
  /-- The response to the last command, none before the first (R35). -/
  resp : Option Response
  deriving DecidableEq, Repr

/-- Why a step can stop the machine with a fault. It has no constructor: no rule of the spec stops the unit, since
every command responds (R118, R119) and an error is a response after which the unit goes on (R99, R108). Raised by
nothing; safe (log 6). -/
inductive Fault where
  deriving DecidableEq, Repr

/-- Why a step can refuse an instruction. -/
inductive Refusal where
  /-- An arm of `exec` that has no meaning yet would answer so, by the instruction's mnemonic. Raised by nothing:
  every instruction has its meaning. Safe. -/
  | notModelled (mnemonic : String)
  deriving DecidableEq, Repr

/-- The state after reset of an instance of widths `S` and `T` (R17, R113): both registers zero. No command has been
issued and no response given. -/
def State.resetOf (S T : Nat) : State where
  A := List.replicate S 0
  B := List.replicate T 0
  port := []
  din := []
  resp := none

/-- The state after reset, of the instance of Config's widths (log 1). -/
def State.reset : State := State.resetOf Config.S Config.T

end Sys2Proof.Machine
end

