-- ==== Sys2Proof/Machine/Value.lean ====
section
/-! DEFINITION. Values: a value of width N is a sequence of N bytes, most significant first (00_scope.md section
5.1). Its number, its bytes and bits by position, its rank. Bits and bytes counted from the least significant end
are read as 0 beyond the value, which is the spec's "if in range else 0". -/

namespace Sys2Proof.Machine

/-- The value of width `N` whose byte `i` is `f i`. -/
def build (N : Nat) (f : Nat → Byte) : List Byte := (List.range N).map f

/-- `v.b[i]`, 0 outside the value. -/
def byteAt (v : List Byte) (i : Nat) : Byte := v.getD i 0

/-- `v.b[i] if 0 <= i < N else 0`, for an index that may be negative (R53, R54). -/
def byteAtInt (v : List Byte) (i : Int) : Byte :=
  if 0 ≤ i ∧ i < v.length then byteAt v i.toNat else 0

/-- Byte `j` counted from the least significant end, `v.b[N-1-j] if j < N else 0` (R59). -/
def lsByte (v : List Byte) (j : Nat) : Byte :=
  if j < v.length then byteAt v (v.length - 1 - j) else 0

/-- The number of a value: `sum over i of v.b[i] * 256^(N-1-i)` (R22). -/
def val : List Byte → Nat
  | [] => 0
  | b :: bs => b.toNat * 256 ^ bs.length + val bs

/-- `bytes_N(n)`: the value of width `N` whose number is `n mod 256^N` (00_scope.md section 5.1). -/
def bytesOf (N n : Nat) : List Byte :=
  build N fun i => BitVec.ofNat 8 (n / 256 ^ (N - 1 - i) % 256)

/-- `zero_N`. -/
def zero (N : Nat) : List Byte := bytesOf N 0

/-- `one_N`. -/
def one (N : Nat) : List Byte := bytesOf N 1

/-- Bit `p` of a value, counted from the least significant (00_scope.md section 5.2, R90). -/
def bit (v : List Byte) (p : Nat) : Bool :=
  (lsByte v (p / 8)).toNat / 2 ^ (p % 8) % 2 == 1

/-- The scan of R92 over the bit positions below `n`, from the highest down. -/
def rankBelow (v : List Byte) : Nat → Nat
  | 0 => 0
  | p + 1 => if bit v p then p + 1 else rankBelow v p

/-- `rank(v)`: one plus the position of the highest set bit, 0 for the zero value (R92). Computed each time, stored
nowhere (R16). -/
def rank (v : List Byte) : Nat := rankBelow v (8 * v.length)

/-- The form of one byte space (R20, R10): a fixed number of bytes, 1 to 65535 (R5). As the space is the whole
sequence of its bytes, two spaces of one width with the same bytes are the same list (log 14). -/
def Memory.wf (m : List Byte) : Bool := decide (1 ≤ m.length) && decide (m.length ≤ Config.maxWidth)

end Sys2Proof.Machine
end

