-- ==== Sys2Proof/Machine/Operands.lean ====
section
/-! DEFINITION. The operands of a command: self and other by the bit `r` (30_encoding.md rule R33), the alignment
function of cross-width operands (40_align_compare.md rule R43), and the one-byte accesses into the byte spaces
(20_memory.md rule R21). -/

namespace Sys2Proof.Machine

/-- The content of a value register. -/
def State.reg (s : State) : Reg → List Byte
  | .A => s.A
  | .B => s.B

/-- The byte width of a value register: N for self, M for other (R33). -/
abbrev State.width (s : State) (r : Reg) : Nat := (s.reg r).length

/-- `x[R] <- v`: the whole content of one register replaced, nothing else changed (00_scope.md section 5.4). -/
def State.setReg (s : State) (r : Reg) (v : List Byte) : State :=
  match r with
  | .A => { s with A := v }
  | .B => { s with B := v }

/-- The content of the register that is other when `r` is self (R33). -/
def State.otherReg (s : State) (r : Reg) : List Byte := s.reg r.other

/-- The alignment selector `align_N(v)` (R43): matched at the least significant ends, absent leading bytes 0,
excess leading bytes dropped. -/
def align (N : Nat) (v : List Byte) : List Byte :=
  build N fun i => byteAtInt v ((i : Int) - ((N : Int) - (v.length : Int)))

/-- `MemRead((r, i), 1)` (R21). -/
def memRead (s : State) (r : Reg) (i : Nat) : Byte := byteAt (s.reg r) i

/-- `MemWrite((r, i), 1, b)` (R21): one byte of one register, nothing else. -/
def memWrite (s : State) (r : Reg) (i : Nat) (b : Byte) : State := s.setReg r ((s.reg r).set i b)

end Sys2Proof.Machine
end

