-- ==== Sys2Proof/Machine/Ops.lean ====
section
/-! DEFINITION. The shared operations of every command: how a command ends, with a success (`respond`) or with an
error (`raise`, 60_exceptions.md rules R98 and R99, the only kind of exception the unit has), and how the next
command is taken from the port (20_memory.md rule R28). There is no return from an error: nothing is saved and
nothing has to be cleared (R107, R108). -/

namespace Sys2Proof.Machine

/-- The number of a status (R36). -/
def Status.code : Status → BitVec 3
  | .ok => 0
  | .parseError => 1
  | .rangeError => 2
  | .divideByZeroError => 3
  | .illegalCommand => 4

/-- The error outcomes of a command with their info (R98). The OverflowSignal is none of them: it never leaves the
divider (R103). -/
inductive CmdError where
  /-- HEXIN: `din` has the wrong length, which is reported. -/
  | parseLength (len : Nat)
  /-- HEXIN: the first character outside the alphabet. -/
  | parseCharacter (c : Byte)
  /-- RDB, WRB: the byte index; GETBIT: the bit position. -/
  | range (i : Nat)
  /-- DIV, MOD: other is zero. -/
  | divideByZero
  /-- The word is no legal encoding for this instance. -/
  | illegalCommand
  deriving DecidableEq, Repr

/-- The response of an error, by the table of R98. `dout` is empty in every one. -/
def CmdError.response : CmdError → Response
  | .parseLength len => { status := .parseError, flag := false, val := BitVec.ofNat 24 len, dout := [] }
  | .parseCharacter c => { status := .parseError, flag := true, val := BitVec.ofNat 24 c.toNat, dout := [] }
  | .range i => { status := .rangeError, flag := false, val := BitVec.ofNat 24 i, dout := [] }
  | .divideByZero => { status := .divideByZeroError, flag := false, val := 0, dout := [] }
  | .illegalCommand => { status := .illegalCommand, flag := false, val := 0, dout := [] }

/-- The response of a success (R35): a field the command does not set is 0 or empty. -/
def okResponse (flag : Bool := false) (val : BitVec 24 := 0) (dout : List Byte := []) : Response :=
  { status := .ok, flag := flag, val := val, dout := dout }

/-- The response is given on the port; nothing of it is kept beyond the next command (R19). -/
def State.answer (s : State) (a : Response) : State := { s with resp := some a }

/-- `respond(flag, val, dout)`: the command ends with status OK (00_scope.md section 5.4). -/
def respond (s : State) (flag : Bool := false) (val : BitVec 24 := 0) (dout : List Byte := []) :
    Host.Outcome State Fault Refusal :=
  .next (s.answer (okResponse flag val dout))

/-- `raise E(info)` (R99): the command ends at once, writes nothing, and answers the error's response. The unit goes
on: the next command runs as after a success (R108). -/
def raise (s : State) (e : CmdError) : Host.Outcome State Fault Refusal :=
  .next (s.answer e.response)

/-- The next command is taken from the port (R28): its word, and the state in which it executes, with its character
sequence on the input. None when the host issues no more (R119). -/
def State.takeCommand (s : State) : Option (Word × State) :=
  match s.port with
  | [] => none
  | c :: cs => some (c.word, { s with port := cs, din := c.din })

/-- The port with a command word as the next command, in the place of the one that stood there. -/
def State.withNextWord (s : State) (w : Word) : State :=
  { s with port := { word := w, din := (s.port.head?.map Command.din).getD [] } :: s.port.tail }

end Sys2Proof.Machine
end

