-- ==== Sys2Proof/Machine/Access.lean ====
section
/-! DEFINITION. The bit accessor, rank, default construction, raw byte access and bit materialization: GETBIT, RANK,
CLR, RDB, WRB, DUMP, BITS (47_access.md). -/

namespace Sys2Proof.Machine

/-- GETBIT (R90). -/
def execGetbit (r : Reg) (pos : Nat) (s : State) : Host.Outcome State Fault Refusal :=
  if pos ≥ 8 * s.width r then raise s (.range pos) else respond s (flag := bit (s.reg r) pos)

/-- RANK (R91). -/
def execRank (r : Reg) (s : State) : Host.Outcome State Fault Refusal :=
  respond s (val := BitVec.ofNat 24 (rank (s.reg r)))

/-- CLR (R93). -/
def execClr (r : Reg) (s : State) : Host.Outcome State Fault Refusal :=
  respond (s.setReg r (zero (s.width r)))

/-- RDB (R94): the byte, zero-extended. -/
def execRdb (r : Reg) (idx : Nat) (s : State) : Host.Outcome State Fault Refusal :=
  if idx ≥ s.width r then raise s (.range idx)
  else respond s (val := BitVec.ofNat 24 (memRead s r idx).toNat)

/-- WRB (R95). -/
def execWrb (r : Reg) (idx : Nat) (v8 : Byte) (s : State) : Host.Outcome State Fault Refusal :=
  if idx ≥ s.width r then raise s (.range idx) else respond (memWrite s r idx v8)

/-- DUMP (R96): all bytes, most significant first. -/
def execDump (r : Reg) (s : State) : Host.Outcome State Fault Refusal :=
  respond s (dout := s.reg r)

/-- BITS (R97): one item 0x00 or 0x01 per bit, most significant first. -/
def execBits (r : Reg) (s : State) : Host.Outcome State Fault Refusal :=
  respond s (dout := build (8 * s.width r) fun j => if bit (s.reg r) (8 * s.width r - 1 - j) then 0x01 else 0x00)

end Sys2Proof.Machine
end

