-- ==== Sys2Proof/Machine/AddSub.lean ====
section
/-! DEFINITION. The carry-propagate adder and the subtractor built on it: ADD, SUB (42_add_sub.md). `notv` stands
here because negation uses it (R62); the command NOT is in Bitwise.lean. -/

namespace Sys2Proof.Machine

/-- The loop of R59 after its first `j` bytes, counted from the least significant end: the carry into byte `j`, and
the result's `j` low bytes. The carry is the true carry of the three-term sum (R60). -/
def addLow (a b : List Byte) : Nat → Nat × List Byte
  | 0 => (0, [])
  | j + 1 =>
    match addLow a b j with
    | (c, low) =>
      let t := (lsByte a j).toNat + (lsByte b j).toNat + c
      (t / 256, BitVec.ofNat 8 (t % 256) :: low)

/-- `add_N(a, b)` (R59): of the width of `a`; the last carry is dropped, missing bytes of `b` are 0 and its bytes
beyond the width of `a` are not read (R66). -/
def add (a b : List Byte) : List Byte := (addLow a b a.length).2

/-- `not_N(v)` (R83). -/
def notv (v : List Byte) : List Byte := v.map fun b => BitVec.ofNat 8 (255 - b.toNat)

/-- `neg_N(v)` (R62): two's-complement negation, the added one being a value of width 1. -/
def neg (v : List Byte) : List Byte := add (notv v) (one 1)

/-- `sub_N(a, b)` (R63): the other operand is brought to the width of `a`, then negated, then added. -/
def sub (a b : List Byte) : List Byte := add a (neg (align a.length b))

/-- ADD (R61). -/
def execAdd (r : Reg) (s : State) : Host.Outcome State Fault Refusal :=
  respond (s.setReg r (add (s.reg r) (s.otherReg r)))

/-- SUB (R64). -/
def execSub (r : Reg) (s : State) : Host.Outcome State Fault Refusal :=
  respond (s.setReg r (sub (s.reg r) (s.otherReg r)))

end Sys2Proof.Machine
end

