-- ==== Sys2Proof/Machine/Flags.lean ====
section
/-! DEFINITION. The boolean and order results that the response field `flag` carries (10_state.md rule R12: none is
stored): the cross-width comparator (40_align_compare.md rules R45 and R46). The bit of GETBIT is `bit` of
Value.lean. -/

namespace Sys2Proof.Machine

/-- R45 for a wider (or equal) `w` and a narrower `n`: every leading byte of `w` is 0 and the aligned bytes match. -/
def eqWider (w n : List Byte) : Bool :=
  (w.take (w.length - n.length)).all (· == 0) && (w.drop (w.length - n.length) == n)

/-- `eq(p, q)` (R45): the wider of the two is the reference. -/
def eqv (p q : List Byte) : Bool :=
  if q.length ≤ p.length then eqWider p q else eqWider q p

/-- The scan of R46 over the aligned bytes, most significant first: the first mismatch decides. -/
def scanBytes : List Byte → List Byte → Ordering
  | x :: xs, y :: ys =>
    if x.toNat = y.toNat then scanBytes xs ys else if x.toNat > y.toNat then .gt else .lt
  | [], _ => .eq
  | _ :: _, [] => .eq

/-- R46 for a wider (or equal) `w` and a narrower `n`, as the verdict for `w`: a nonzero leading byte makes `w`
greater, otherwise the scan of the aligned bytes decides. -/
def cmpWider (w n : List Byte) : Ordering :=
  if (w.take (w.length - n.length)).any (· != 0) then .gt
  else scanBytes (w.drop (w.length - n.length)) n

/-- `cmp(p, q)` (R46): how `p` stands to `q`. The verdict is turned round when `q` is the wider. -/
def cmpv (p q : List Byte) : Ordering :=
  if q.length ≤ p.length then cmpWider p q else (cmpWider q p).swap

end Sys2Proof.Machine
end

