-- ==== Sys2Proof/Machine/AlignCompare.lean ====
section
/-! DEFINITION. The alignment selector and the cross-width comparator: MOV, CMPEQ, CMPLT, CMPGT, CMPLE, CMPGE
(40_align_compare.md). -/

namespace Sys2Proof.Machine

/-- MOV (R44): `x[X] <- align_N(x[Y])`. -/
def execMov (r : Reg) (s : State) : Host.Outcome State Fault Refusal :=
  respond (s.setReg r (align (s.width r) (s.otherReg r)))

/-- CMPEQ (R47). -/
def execCmpeq (r : Reg) (s : State) : Host.Outcome State Fault Refusal :=
  respond s (flag := eqv (s.reg r) (s.otherReg r))

/-- CMPLT (R48): `cmp` is LESS. -/
def execCmplt (r : Reg) (s : State) : Host.Outcome State Fault Refusal :=
  respond s (flag := cmpv (s.reg r) (s.otherReg r) == .lt)

/-- CMPGT (R49): `cmp` is GREATER. -/
def execCmpgt (r : Reg) (s : State) : Host.Outcome State Fault Refusal :=
  respond s (flag := cmpv (s.reg r) (s.otherReg r) == .gt)

/-- CMPLE (R50): not greater. -/
def execCmple (r : Reg) (s : State) : Host.Outcome State Fault Refusal :=
  respond s (flag := !(cmpv (s.reg r) (s.otherReg r) == .gt))

/-- CMPGE (R51): not less. -/
def execCmpge (r : Reg) (s : State) : Host.Outcome State Fault Refusal :=
  respond s (flag := !(cmpv (s.reg r) (s.otherReg r) == .lt))

end Sys2Proof.Machine
end

