-- ==== Sys2Proof/Machine/Bitwise.lean ====
section
/-! DEFINITION. The bitwise operators: AND, OR, XOR, NOT (45_bitwise.md). -/

namespace Sys2Proof.Machine

/-- The byte-wise combination of self and other, which needs equal widths: in an instance with S != T the word is
illegal (R84, R38 case (d)); the check stands here and not in the decoder (log 9). -/
def bitwise (op : Byte → Byte → Byte) (r : Reg) (s : State) : Host.Outcome State Fault Refusal :=
  if s.A.length ≠ s.B.length then raise s .illegalCommand
  else respond (s.setReg r (build (s.width r) fun i => op (byteAt (s.reg r) i) (byteAt (s.otherReg r) i)))

/-- AND (R80). -/
def execAnd (r : Reg) (s : State) : Host.Outcome State Fault Refusal := bitwise (fun x y => x &&& y) r s

/-- OR (R81). -/
def execOr (r : Reg) (s : State) : Host.Outcome State Fault Refusal := bitwise (fun x y => x ||| y) r s

/-- XOR (R82). -/
def execXor (r : Reg) (s : State) : Host.Outcome State Fault Refusal := bitwise (fun x y => x ^^^ y) r s

/-- NOT (R83): exists in every instance, other is not read. -/
def execNot (r : Reg) (s : State) : Host.Outcome State Fault Refusal := respond (s.setReg r (notv (s.reg r)))

end Sys2Proof.Machine
end

