-- ==== Sys2Proof/Machine/Shift.lean ====
section
/-! DEFINITION. The barrel shifter: SHR, SHL (41_shift.md). -/

namespace Sys2Proof.Machine

/-- `shr_N(v, k)` (R53): each destination byte is the low 8 bits of a 16-bit window over two adjacent source bytes,
shifted right by `k mod 8`. Every read is of the value before the shift. -/
def shr (v : List Byte) (k : Nat) : List Byte :=
  build v.length fun i =>
    let idx : Int := (i : Int) - (k / 8 : Nat)
    let right := byteAtInt v idx
    let left := byteAtInt v (idx - 1)
    let window := left.toNat * 256 + right.toNat
    BitVec.ofNat 8 (window / 2 ^ (k % 8) % 256)

/-- `shl_N(v, k)` (R54): each destination byte is bits 15:8 of the 16-bit window over two adjacent source bytes,
shifted left by `k mod 8` and kept to 16 bits. -/
def shl (v : List Byte) (k : Nat) : List Byte :=
  build v.length fun i =>
    let idx : Int := (i : Int) + (k / 8 : Nat)
    let high := byteAtInt v idx
    let low := byteAtInt v (idx + 1)
    let window := high.toNat * 256 + low.toNat
    BitVec.ofNat 8 (window * 2 ^ (k % 8) % 65536 / 256)

/-- SHR (R55). -/
def execShr (r : Reg) (k : Nat) (s : State) : Host.Outcome State Fault Refusal :=
  respond (s.setReg r (shr (s.reg r) k))

/-- SHL (R56). -/
def execShl (r : Reg) (k : Nat) (s : State) : Host.Outcome State Fault Refusal :=
  respond (s.setReg r (shl (s.reg r) k))

end Sys2Proof.Machine
end

