-- ==== Sys2Proof/Machine/Multiply.lean ====
section
/-! DEFINITION. The multiplier, plain (MUL) and overflow-checked (internal to the divider, no command: R72)
(43_multiply.md). -/

namespace Sys2Proof.Machine

/-- The accumulator of R67 after the bit positions below `n`, bit 0 first. -/
def mulBelow (a b : List Byte) : Nat → List Byte
  | 0 => zero a.length
  | i + 1 => if bit b i then add (mulBelow a b i) (shl a i) else mulBelow a b i

/-- `mul_N(a, b)` (R67): shift-and-add over all `8M` bit positions of the right operand, at the width of the left. -/
def mul (a b : List Byte) : List Byte := mulBelow a b (8 * b.length)

/-- The walk of R69 from bit position `i` on, with `n` positions left and the accumulator `acc`: the rank check
before each addition, the wraparound check after it. -/
def mulcFrom (l r : List Byte) : (n i : Nat) → (acc : List Byte) → Bool × List Byte
  | 0, _, acc => (false, acc)
  | n + 1, i, acc =>
    if bit r i then
      if rank l + i > 8 * l.length then (true, acc)
      else if cmpv (add acc (shl l i)) acc == .lt then (true, add acc (shl l i))
      else mulcFrom l r n (i + 1) (add acc (shl l i))
    else mulcFrom l r n (i + 1) acc

/-- `mulc_N(l, r)` (R69), for two operands of one width: the overflow flag, and the product or the partial
accumulator (D15: on the wraparound abort, the wrapped sum; no command shows it, log 10). -/
def mulc (l r : List Byte) : Bool × List Byte := mulcFrom l r (8 * l.length) 0 (zero l.length)

/-- MUL (R68). -/
def execMul (r : Reg) (s : State) : Host.Outcome State Fault Refusal :=
  respond (s.setReg r (mul (s.reg r) (s.otherReg r)))

end Sys2Proof.Machine
end

