-- ==== Sys2Proof/Machine/Divide.lean ====
section
/-! DEFINITION. The restoring binary divider: DIV, MOD (44_divide_modulo.md). -/

namespace Sys2Proof.Machine

/-- The temporaries of a division (R73, R15): gone when the command responds. -/
structure DivTemps where
  /-- The working remainder. -/
  rem : List Byte
  /-- The quotient so far. -/
  res : List Byte
  /-- The multiplier, one set bit, halved in each iteration. -/
  mult : List Byte
  deriving DecidableEq, Repr

/-- One iteration of R73 for the aligned divisor `d`: subtract the scaled divisor if it did not overflow and fits,
else skip (the restoring step), then halve the multiplier. -/
def divStep (d : List Byte) (t : DivTemps) : DivTemps :=
  match mulc d t.mult with
  | (ovf, p) =>
    if !ovf && !(cmpv t.rem p == .lt) then
      { rem := sub t.rem p, res := add t.res t.mult, mult := shr t.mult 1 }
    else { t with mult := shr t.mult 1 }

/-- `n` iterations of R73. -/
def divIter (d : List Byte) : Nat → DivTemps → DivTemps
  | 0, t => t
  | n + 1, t => divIter d n (divStep d t)

/-- The temporaries before the first iteration (R73): the multiplier is 2^(8N-1). -/
def divStart (a : List Byte) : DivTemps :=
  { rem := a, res := zero a.length, mult := build a.length fun i => if i = 0 then 0x80 else 0 }

/-- `divq_N(a, b)` (R73): the quotient, or none where DivideByZeroError is raised. -/
def divq (a b : List Byte) : Option (List Byte) :=
  if cmpv a b == .lt then some (zero a.length)
  else if b.all (· == 0) then none
  else some (divIter (align a.length b) (8 * a.length) (divStart a)).res

/-- `modr_N(a, b)` (R77): the remainder, or none where DivideByZeroError is raised. The product and the difference
have the wider of the two widths. -/
def modr (a b : List Byte) : Option (List Byte) :=
  let W := max a.length b.length
  match divq a b with
  | none => none
  | some q => some (align a.length (sub (align W a) (mul (align W b) (align W q))))

/-- DIV (R74). -/
def execDiv (r : Reg) (s : State) : Host.Outcome State Fault Refusal :=
  match divq (s.reg r) (s.otherReg r) with
  | none => raise s .divideByZero
  | some q => respond (s.setReg r q)

/-- MOD (R78). -/
def execMod (r : Reg) (s : State) : Host.Outcome State Fault Refusal :=
  match modr (s.reg r) (s.otherReg r) with
  | none => raise s .divideByZero
  | some m => respond (s.setReg r m)

end Sys2Proof.Machine
end

