-- ==== Sys2Proof/Machine/HexCodec.lean ====
section
/-! DEFINITION. The hex codec: HEXIN, HEXOUT, HEXOUTX (46_hex_codec.md). -/

namespace Sys2Proof.Machine

/-- The digit value of a character, none outside the alphabet (R85). The character codes are ASCII, which the spec
takes from general knowledge (G1, D19; PRESUMED, log 11). -/
def hexval (c : Byte) : Option Nat :=
  if 0x30 ≤ c.toNat ∧ c.toNat ≤ 0x39 then some (c.toNat - 0x30)
  else if 0x61 ≤ c.toNat ∧ c.toNat ≤ 0x66 then some (c.toNat - 0x61 + 10)
  else if 0x41 ≤ c.toNat ∧ c.toNat ≤ 0x46 then some (c.toNat - 0x41 + 10)
  else none

/-- The output character of a digit value 0 to 15, lowercase only (R85). -/
def hexchar (d : Nat) : Byte := if d ≤ 9 then BitVec.ofNat 8 (0x30 + d) else BitVec.ofNat 8 (0x61 + d - 10)

/-- The digit value of character `j` of `din`, for characters of the alphabet. -/
def digitAt (din : List Byte) (j : Nat) : Nat := (hexval (byteAt din j)).getD 0

/-- The parse of R86 at width `N`: the length is tested first, then the characters in string order (R106). -/
def parseHex (N : Nat) (din : List Byte) : Except CmdError (List Byte) :=
  if din.length ≠ 2 * N then .error (.parseLength din.length)
  else
    match din.find? fun c => (hexval c).isNone with
    | some c => .error (.parseCharacter c)
    | none => .ok (build N fun i => BitVec.ofNat 8 (digitAt din (2 * i) * 16 + digitAt din (2 * i + 1)))

/-- The 2N characters of a value, most significant nibble first (R87). -/
def toHex (v : List Byte) : List Byte :=
  v.flatMap fun b => [hexchar (b.toNat / 16), hexchar (b.toNat % 16)]

/-- HEXIN (R86). -/
def execHexin (r : Reg) (s : State) : Host.Outcome State Fault Refusal :=
  match parseHex (s.width r) s.din with
  | .error e => raise s e
  | .ok v => respond (s.setReg r v)

/-- HEXOUT (R87). -/
def execHexout (r : Reg) (s : State) : Host.Outcome State Fault Refusal :=
  respond s (dout := toHex (s.reg r))

/-- HEXOUTX (R88): the characters `0x` first. -/
def execHexoutx (r : Reg) (s : State) : Host.Outcome State Fault Refusal :=
  respond s (dout := [0x30, 0x78] ++ toHex (s.reg r))

end Sys2Proof.Machine
end

