-- ==== Sys2Proof/Machine/Dispatch.lean ====
section
/-! DEFINITION. The meaning of each operation of the opcode map (30_encoding.md rule R37), one arm a constructor. -/

namespace Sys2Proof.Machine

def exec (i : Instr) (s : State) : Host.Outcome State Fault Refusal :=
  match i with
  | .mov r => Sys2Proof.Machine.execMov r s
  | .cmpeq r => Sys2Proof.Machine.execCmpeq r s
  | .cmplt r => Sys2Proof.Machine.execCmplt r s
  | .cmpgt r => Sys2Proof.Machine.execCmpgt r s
  | .cmple r => Sys2Proof.Machine.execCmple r s
  | .cmpge r => Sys2Proof.Machine.execCmpge r s
  | .shr r k => Sys2Proof.Machine.execShr r k s
  | .shl r k => Sys2Proof.Machine.execShl r k s
  | .add r => Sys2Proof.Machine.execAdd r s
  | .sub r => Sys2Proof.Machine.execSub r s
  | .mul r => Sys2Proof.Machine.execMul r s
  | .div r => Sys2Proof.Machine.execDiv r s
  | .mod r => Sys2Proof.Machine.execMod r s
  | .and r => Sys2Proof.Machine.execAnd r s
  | .or r => Sys2Proof.Machine.execOr r s
  | .xor r => Sys2Proof.Machine.execXor r s
  | .not r => Sys2Proof.Machine.execNot r s
  | .hexin r => Sys2Proof.Machine.execHexin r s
  | .hexout r => Sys2Proof.Machine.execHexout r s
  | .hexoutx r => Sys2Proof.Machine.execHexoutx r s
  | .getbit r pos => Sys2Proof.Machine.execGetbit r pos s
  | .rank r => Sys2Proof.Machine.execRank r s
  | .clr r => Sys2Proof.Machine.execClr r s
  | .rdb r idx => Sys2Proof.Machine.execRdb r idx s
  | .wrb r idx v8 => Sys2Proof.Machine.execWrb r idx v8 s
  | .dump r => Sys2Proof.Machine.execDump r s
  | .bits r => Sys2Proof.Machine.execBits r s

end Sys2Proof.Machine
end

