-- ==== Sys2Proof/Machine/Step.lean ====
section
/-! DEFINITION. One step of the unit: the next command is taken from the port, decoded and executed, completely
before the next begins (20_memory.md rules R25 and R28, 70_reset_and_hazards.md rule R118: one step a command). -/

namespace Sys2Proof.Machine

/-- One step. With no command on the port the unit is idle and its state does not change (R111, R114; log 4). A word the
decoder refuses is answered with IllegalCommand before any operation starts (R104, R106). -/
def step (s : State) : Host.Outcome State Fault Refusal :=
  match s.takeCommand with
  | none => .next s
  | some (w, t) =>
    match decode w with
    | .error _ => raise t .illegalCommand
    | .ok i => exec i t

/-- The command word of `nbits` bits `w` as the next command on the port (log 3). -/
def State.withFetchWord (s : State) (nbits w : Nat) : State :=
  s.withNextWord (BitVec.ofNat 32 (w % 2 ^ nbits))

end Sys2Proof.Machine
end

