-- ==== Sys2Proof/Safety.lean ====
section
/-! DEFINITION. What a run may rely on, in the terms of the statements: the states an instance can be in, what a command
may change, the errors of rule R98 as one table over the instructions, and the legal command words of rules R34, R37
and R38 written a second time, from the words of those rules. -/

namespace Sys2Proof.Machine

/-- A state of an instance (R5, R6, R10): both registers have a width in 1..65535, and every character sequence has a
length the interface allows (logs 7 and 8). -/
def State.wf (s : State) : Bool :=
  Memory.wf s.A && Memory.wf s.B && decide (s.din.length ≤ Config.maxDin) &&
    s.port.all fun c => decide (c.din.length ≤ Config.maxDin)

/-- `t` is a state of the instance that `s` is a state of: no width differs (R10(a)). -/
def SameWidths (s t : State) : Prop := t.A.length = s.A.length ∧ t.B.length = s.B.length

/-- The port of `t` is that of `s`, with the response `a` given on it: what every command does to the port. -/
structure Answers (s t : State) (a : Response) : Prop where
  resp : t.resp = some a
  port : t.port = s.port
  din : t.din = s.din

/-- The command wrote nothing and answered `a`. -/
structure ReportsOnly (s t : State) (a : Response) : Prop where
  keepsA : t.A = s.A
  keepsB : t.B = s.B
  answers : Answers s t a

/-- The command wrote the register `r`, at its width, left the other as it was, and answered OK with no result
field set. What was written is said beside. -/
structure WritesOnly (r : Reg) (s t : State) : Prop where
  width : t.width r = s.width r
  keepsOther : t.otherReg r = s.otherReg r
  answers : Answers s t { status := .ok, flag := false, val := 0, dout := [] }

/-- The same state with the contents of A and B exchanged. -/
def State.swap (s : State) : State := { s with A := s.B, B := s.A }

/-- The command word with `op`, `r` and `imm24` given (R32, R37): with `r = 1`, 0x80000000 is added. -/
def commandWord (op : Nat) (r : Reg) (imm : Nat) : Word :=
  BitVec.ofNat 32 (op * 0x1000000 + imm + match r with | .A => 0 | .B => 0x80000000)

/-- The 27 codes of the opcode map (R37). -/
def assignedOps : List Nat :=
  [0x01, 0x02, 0x03, 0x04, 0x05, 0x06, 0x08, 0x09, 0x10, 0x11, 0x18, 0x20, 0x21, 0x28, 0x29, 0x2A, 0x2B, 0x30, 0x31,
    0x32, 0x38, 0x39, 0x40, 0x41, 0x42, 0x43, 0x44]

/-- The codes of format K and of format X (R34); every other assigned code has format N. -/
def operandOps : List Nat := [0x08, 0x09, 0x38, 0x41, 0x42]

/-- The command word `w` is illegal in an instance of widths `S` and `T`, by the cases of R38. -/
def IllegalWord (S T : Nat) (w : Word) : Prop :=
  cmdBits w 30 24 ∉ assignedOps ∨
  (cmdBits w 30 24 ∈ assignedOps ∧ cmdBits w 30 24 ∉ operandOps ∧ cmdBits w 23 0 ≠ 0) ∨
  (cmdBits w 30 24 = 0x41 ∧ cmdBits w 7 0 ≠ 0) ∨
  (cmdBits w 30 24 ∈ [0x28, 0x29, 0x2A] ∧ S ≠ T)

end Sys2Proof.Machine

namespace Sys2Proof

open Machine

/-- The byte `(q, j)` is one the command stores to when it succeeds (R18): every byte of self for a command that
writes self, byte `idx` of self for WRB, none for the others. -/
def Instr.stores (i : Instr) (s : State) (q : Reg) (j : Nat) : Bool :=
  match i with
  | .mov r | .shr r _ | .shl r _ | .add r | .sub r | .mul r | .div r | .mod r | .and r | .or r | .xor r | .not r
  | .hexin r | .clr r => q == r && decide (j < s.width r)
  | .wrb r idx _ => q == r && j == idx && decide (j < s.width r)
  | .cmpeq _ | .cmplt _ | .cmpgt _ | .cmple _ | .cmpge _ | .hexout _ | .hexoutx _ | .getbit _ _ | .rank _
  | .rdb _ _ | .dump _ | .bits _ => false

/-- The command reads its other register (R18). -/
def Instr.readsOther : Instr → Bool
  | .mov _ | .cmpeq _ | .cmplt _ | .cmpgt _ | .cmple _ | .cmpge _ | .add _ | .sub _ | .mul _ | .div _ | .mod _
  | .and _ | .or _ | .xor _ => true
  | .shr _ _ | .shl _ _ | .not _ | .hexin _ | .hexout _ | .hexoutx _ | .getbit _ _ | .rank _ | .clr _ | .rdb _ _
  | .wrb _ _ _ | .dump _ | .bits _ => false

/-- The same command with the roles of A and B exchanged (R33). -/
def Instr.swap : Instr → Instr
  | .mov r => .mov r.other
  | .cmpeq r => .cmpeq r.other
  | .cmplt r => .cmplt r.other
  | .cmpgt r => .cmpgt r.other
  | .cmple r => .cmple r.other
  | .cmpge r => .cmpge r.other
  | .shr r k => .shr r.other k
  | .shl r k => .shl r.other k
  | .add r => .add r.other
  | .sub r => .sub r.other
  | .mul r => .mul r.other
  | .div r => .div r.other
  | .mod r => .mod r.other
  | .and r => .and r.other
  | .or r => .or r.other
  | .xor r => .xor r.other
  | .not r => .not r.other
  | .hexin r => .hexin r.other
  | .hexout r => .hexout r.other
  | .hexoutx r => .hexoutx r.other
  | .getbit r pos => .getbit r.other pos
  | .rank r => .rank r.other
  | .clr r => .clr r.other
  | .rdb r idx => .rdb r.other idx
  | .wrb r idx v8 => .wrb r.other idx v8
  | .dump r => .dump r.other
  | .bits r => .bits r.other

/-- The error response that R98 and R38 case (d) give a decoded command in a state, none where it succeeds. -/
def Instr.errorIn (i : Instr) (s : State) : Option Response :=
  match i with
  | .hexin r =>
    if s.din.length ≠ 2 * s.width r then
      some { status := .parseError, flag := false, val := BitVec.ofNat 24 s.din.length, dout := [] }
    else (s.din.filter fun c => (hexval c).isNone).head?.map fun c =>
      { status := .parseError, flag := true, val := c.setWidth 24, dout := [] }
  | .rdb r idx | .wrb r idx _ =>
    if s.width r ≤ idx then some { status := .rangeError, flag := false, val := BitVec.ofNat 24 idx, dout := [] }
    else none
  | .getbit r pos =>
    if 8 * s.width r ≤ pos then some { status := .rangeError, flag := false, val := BitVec.ofNat 24 pos, dout := [] }
    else none
  | .div r | .mod r =>
    if (s.otherReg r).all (· == 0) then some { status := .divideByZeroError, flag := false, val := 0, dout := [] }
    else none
  | .and _ | .or _ | .xor _ =>
    if s.A.length ≠ s.B.length then some { status := .illegalCommand, flag := false, val := 0, dout := [] }
    else none
  | .mov _ | .cmpeq _ | .cmplt _ | .cmpgt _ | .cmple _ | .cmpge _ | .shr _ _ | .shl _ _ | .add _ | .sub _ | .mul _
  | .not _ | .hexout _ | .hexoutx _ | .rank _ | .clr _ | .dump _ | .bits _ => none

end Sys2Proof
end

