-- ==== Sys2Proof/Certificates/Slice0/Obligations.lean ====
section
/-! DEFINITION. The statements for the provers. `X` of the spec is `s.reg r` (self), `Y` is `s.otherReg r` (other), `N`
is `s.width r`. A statement of a result is also the statement that the command completes: it says that `exec` answers
a next state, for every state and every operand that meets the hypotheses. `WritesOnly` and `ReportsOnly` are the
frames: nothing but self is written, or nothing at all, and of the port only the response changes.

Where the spec marks a sentence `[derived]`, the statement that rests on it says so and is no statement of a rule. -/

open Sys2Proof Sys2Proof.Machine

/-! ## Reset, and what every step keeps -/

/-- R17, 10_state.md: after reset both registers are zero, every byte of them, at every width; so they are in
`State.reset`, whichever instance it resets. -/
def Obligations.ResetLeavesBothRegistersZero : Prop :=
  (∀ S T : Nat,
    (State.resetOf S T).A = zero S ∧ (State.resetOf S T).B = zero T ∧
    (State.resetOf S T).width .A = S ∧ (State.resetOf S T).width .B = T ∧
    ∀ r j, j < (State.resetOf S T).width r → memRead (State.resetOf S T) r j = 0) ∧
  ∀ r, State.reset.reg r = zero (State.reset.width r)

/-- 00_scope.md rule R5 and 10_state.md section 1: the state after reset is a state of an instance, for every pair of
widths the spec allows. The model's choice (log 1): `State.reset` is that of the widths in Config, which are such
widths. -/
def Obligations.ResetStatesAreStatesOfAnInstance : Prop :=
  (∀ S T : Nat, 1 ≤ S → S ≤ 65535 → 1 ≤ T → T ≤ 65535 → (State.resetOf S T).wf = true) ∧
  State.reset = State.resetOf Config.S Config.T ∧ State.reset.wf = true

/-- 10_state.md section 1: no step changes the width of a register, from any state at all, and a state of an instance
(widths in 1..65535, character sequences no longer than the interface allows) steps to a state of an instance. -/
def Obligations.EveryStepKeepsTheInstance : Prop :=
  ∀ s t : State, step s = .next t → SameWidths s t ∧ (s.wf = true → t.wf = true)

/-- 70_reset_and_hazards.md section 5, on the model's port (log 2): a run over all the commands of the port ends, with
the port empty, some response on it where there was a command and both widths as they were, and it stays there (log 4).
That each step answers its own command is `OneStepAnswersOneCommand`. -/
def Obligations.RunOverThePortEndsIdleAndStaysThere : Prop :=
  ∀ s : State, ∃ t : State,
    Host.Core.run Sys2Proof.core s.port.length s = .next t ∧ t.port = [] ∧
    (s.port ≠ [] → ∃ a, t.resp = some a) ∧ SameWidths s t ∧
    ∀ n, s.port.length ≤ n → Host.Core.run Sys2Proof.core n s = .next t

/-- 20_memory.md section 6 and 60_exceptions.md section 6: one step answers exactly the first command of the port,
whatever its word is, and leaves the others to come; with no command on the port a step changes nothing (log 4). -/
def Obligations.OneStepAnswersOneCommand : Prop :=
  (∀ (s : State) (c : Command) (cs : List Command), s.port = c :: cs →
    ∃ t a, step s = .next t ∧ t.resp = some a ∧ t.port = cs ∧ t.din = c.din) ∧
  ∀ s : State, s.port = [] → step s = .next s

/-- 30_encoding.md section 4, on the model's port (log 2): when the word of the next command decodes to `i`, the step
is the meaning of `i` in the state in which that command has left the port and its characters are on the input. The
second clause says it of the host's own way of placing a word (log 3). -/
def Obligations.StepRunsTheDecodedCommand : Prop :=
  (∀ (s : State) (c : Command) (cs : List Command) (i : Instr), s.port = c :: cs → decode c.word = .ok i →
    step s = exec i { s with port := cs, din := c.din }) ∧
  ∀ (s : State) (w : Word) (i : Instr), decode w = .ok i → s.port = [] →
    step (s.withFetchWord 32 w.toNat) = exec i { s with port := [], din := [] }

/-- R7, 00_scope.md: the new registers and the response are a function of A, B, the command word and `din`, and of
nothing else: not of earlier responses, earlier characters or the commands to come. -/
def Obligations.OutcomeDependsOnRegistersAndCommandOnly : Prop :=
  ∀ (s s' : State) (c : Command) (cs cs' : List Command), s.A = s'.A → s.B = s'.B → s.port = c :: cs →
    s'.port = c :: cs' →
    ∃ t t', step s = .next t ∧ step s' = .next t' ∧ t.A = t'.A ∧ t.B = t'.B ∧ t.resp = t'.resp

/-- 30_encoding.md rule R40, its last sentence: for every command other than HEXIN, `din` has no effect. -/
def Obligations.CharactersReachHexinOnly : Prop :=
  ∀ (i : Instr) (s : State) (d : List Byte), (∀ r, i ≠ .hexin r) →
    ∃ t t', exec i s = .next t ∧ exec i { s with din := d } = .next t' ∧ t.A = t'.A ∧ t.B = t'.B ∧ t.resp = t'.resp

/-- 10_state.md rule R18 (a table the spec derives): a command that does not read other has the same effect on self
and the same response whatever other holds, and however wide it is. -/
def Obligations.UnreadOtherHasNoEffect : Prop :=
  ∀ (i : Instr) (s s' : State), i.readsOther = false → s.reg i.self = s'.reg i.self → s.din = s'.din →
    ∃ t t', exec i s = .next t ∧ exec i s' = .next t' ∧ t.reg i.self = t'.reg i.self ∧ t.resp = t'.resp

/-- 10_state.md rule R18 (a table the spec derives) and 20_memory.md section 4: the frame of every command. Other is
unchanged, no byte reads differently but those the command stores to, and the port changes by the response only. -/
def Obligations.EveryCommandKeepsItsFrame : Prop :=
  ∀ (i : Instr) (s : State), ∃ t, exec i s = .next t ∧ t.otherReg i.self = s.otherReg i.self ∧
    (∀ q j, i.stores s q j = false → memRead t q j = memRead s q j) ∧
    t.port = s.port ∧ t.din = s.din ∧ (∃ a, t.resp = some a)

/-- 30_encoding.md section 1: the two registers have the same rules in both roles. Exchanging A and B in the command
and in the state exchanges them in the outcome. -/
def Obligations.BothRolesFollowTheSameRules : Prop :=
  ∀ (i : Instr) (s t : State), exec i s = .next t → exec i.swap s.swap = .next t.swap

/-! ## The command word -/

/-- 30_encoding.md sections 1, 2 and 4: no bit of an encoding is dropped, for every operation and every value of every
operand. -/
def Obligations.DecodingAnEncodedCommandGivesItBack : Prop :=
  ∀ i : Instr, i.wellFormed = true → decode (encode i) = .ok i

/-- 30_encoding.md sections 1, 2 and 4: each legal word stands for one command, whose operands fit their fields, and is
the only word of that command. -/
def Obligations.EveryAcceptedWordIsTheEncodingOfItsCommand : Prop :=
  ∀ (w : Word) (i : Instr), decode w = .ok i → i.wellFormed = true ∧ encode i = w

/-- 30_encoding.md section 7 and 95_test_vectors.md section 2.10: worked encodings of the spec. -/
def Obligations.WorkedEncodingsDecode : Prop :=
  decode 0x10000000 = .ok (.add .A) ∧ decode 0x90000000 = .ok (.add .B) ∧ decode 0x0900000C = .ok (.shl .A 12) ∧
  decode 0x3800001F = .ok (.getbit .A 31) ∧ decode 0x41000300 = .ok (.rdb .A 3) ∧
  decode 0xC20002AB = .ok (.wrb .B 2 0xab) ∧ decode 0xB0000000 = .ok (.hexin .B) ∧
  decode 0x10000001 = .error .nonzeroImmediate ∧ decode 0x41000001 = .error .nonzeroByteField ∧
  decode 0x00000000 = .error .unassignedOpcode ∧ decode 0xFFFFFFFF = .error .unassignedOpcode

/-- R38, 30_encoding.md: a word is answered with IllegalCommand in the listed cases, writing nothing, and only in
these; the all-zero and the all-one word are illegal. -/
def Obligations.IllegalCommandExactlyForTheListedWords : Prop :=
  (∀ (s : State) (c : Command) (cs : List Command), s.port = c :: cs →
    ∃ t a, step s = .next t ∧ t.resp = some a ∧
      (IllegalWord s.A.length s.B.length c.word →
        t.A = s.A ∧ t.B = s.B ∧ a = { status := .illegalCommand, flag := false, val := 0, dout := [] }) ∧
      (¬ IllegalWord s.A.length s.B.length c.word → a.status ≠ .illegalCommand)) ∧
  ∀ S T, IllegalWord S T 0x00000000 ∧ IllegalWord S T 0xFFFFFFFF

/-! ## Errors -/

/-- R36, 30_encoding.md: the status codes; 5, 6 and 7 are never produced. -/
def Obligations.StatusCodesAreZeroToFour : Prop :=
  Status.code .ok = 0 ∧ Status.code .parseError = 1 ∧ Status.code .rangeError = 2 ∧
  Status.code .divideByZeroError = 3 ∧ Status.code .illegalCommand = 4 ∧
  ∀ x : Status, Status.code x ≠ 5 ∧ Status.code x ≠ 6 ∧ Status.code x ≠ 7

/-- R98, 60_exceptions.md: the complete list of error outcomes. A word the decoder refuses answers IllegalCommand; a
decoded command answers the error of the table (`Instr.errorIn`, with R38 case (d)) exactly where the table has one
for it, and otherwise ends with status 0, whatever overflows inside a division. -/
def Obligations.ErrorsAreThoseOfTheTable : Prop :=
  (∀ (s : State) (c : Command) (cs : List Command) (e : Illegal), s.port = c :: cs → decode c.word = .error e →
    ∃ t, step s = .next t ∧
      ReportsOnly { s with port := cs, din := c.din } t
        { status := .illegalCommand, flag := false, val := 0, dout := [] }) ∧
  (∀ (i : Instr) (s : State), ∃ t a, exec i s = .next t ∧ t.resp = some a ∧
    (∀ e, i.errorIn s = some e → a = e) ∧ (i.errorIn s = none → a.status = .ok)) ∧
  Status.code .ok = 0 ∧ Status.code .parseError = 1 ∧ Status.code .rangeError = 2 ∧
  Status.code .divideByZeroError = 3 ∧ Status.code .illegalCommand = 4

/-- R99, 60_exceptions.md: a command that answers an error has written nothing and its `dout` is empty; its response is
one of those of R98 and the only change; and the command after it runs as if the failed one had never been issued. -/
def Obligations.ErrorsWriteNothingAndLeaveNoTrace : Prop :=
  ∀ (s t : State) (c : Command) (cs : List Command) (a : Response), s.port = c :: cs → step s = .next t →
    t.resp = some a → a.status ≠ .ok →
    ReportsOnly { s with port := cs, din := c.din } t a ∧ a.dout = [] ∧ (∃ e : CmdError, a = e.response) ∧
    ∀ d ds, cs = d :: ds → ∃ u, step t = .next u ∧ step { s with port := d :: ds } = .next u

/-! ## Alignment, MOV and the comparator -/

/-- R43, 40_align_compare.md, all but its number form, which the spec derives. -/
def Obligations.AlignmentMatchesLeastSignificantEnds : Prop :=
  ∀ (N : Nat) (v : List Byte),
    (align N v).length = N ∧
    (∀ i, i < N → byteAt (align N v) i =
      if N ≤ i + v.length ∧ i + v.length - N < v.length then byteAt v (i + v.length - N) else 0) ∧
    (v.length ≤ N → align N v = List.replicate (N - v.length) 0 ++ v) ∧
    (N ≤ v.length → align N v = v.drop (v.length - N)) ∧
    (v.length = N → align N v = v)

/-- R44, 40_align_compare.md: MOV completes in every state and copies other, aligned, into self. -/
def Obligations.MovCopiesOtherAligned : Prop :=
  ∀ (r : Reg) (s : State), decode (commandWord 0x01 r 0) = .ok (.mov r) ∧
    ∃ t, exec (.mov r) s = .next t ∧ WritesOnly r s t ∧ t.reg r = align (s.width r) (s.otherReg r) ∧
      ∀ j, j < s.width r → lsByte (t.reg r) j = lsByte (s.otherReg r) j

/-- R45, 40_align_compare.md, all but its number form, which the spec derives: the wider operand is the reference,
whichever side it stands on. -/
def Obligations.EqualityComparesAlignedBytes : Prop :=
  ∀ w n : List Byte, n.length ≤ w.length →
    (eqv w n = true ↔ (∀ i, i < w.length - n.length → byteAt w i = 0) ∧
      ∀ i, i < n.length → byteAt w (w.length - n.length + i) = byteAt n i) ∧
    eqv n w = eqv w n

/-- R46, 40_align_compare.md, all but its number form, which the spec derives: a nonzero leading byte of the wider
operand decides, then the first mismatch of the aligned bytes; the verdict is turned round for the other order. -/
def Obligations.OrderingIsDecidedMostSignificantFirst : Prop :=
  ∀ w n : List Byte, n.length ≤ w.length →
    ((∃ i, i < w.length - n.length ∧ byteAt w i ≠ 0) → cmpv w n = .gt ∧ cmpv n w = .lt) ∧
    ((∀ i, i < w.length - n.length → byteAt w i = 0) →
      (∀ i, i < n.length → (∀ j, j < i → byteAt w (w.length - n.length + j) = byteAt n j) →
        ((byteAt n i).toNat < (byteAt w (w.length - n.length + i)).toNat → cmpv w n = .gt ∧ cmpv n w = .lt) ∧
        ((byteAt w (w.length - n.length + i)).toNat < (byteAt n i).toNat → cmpv w n = .lt ∧ cmpv n w = .gt)) ∧
      ((∀ i, i < n.length → byteAt w (w.length - n.length + i) = byteAt n i) → cmpv w n = .eq ∧ cmpv n w = .eq))

/-- R47 to R51, 40_align_compare.md: the five comparisons complete in every state, write nothing and report the
comparator's verdict; `<=` and `>=` are the negations of the strict opposites. -/
def Obligations.ComparisonsReportTheComparator : Prop :=
  ∀ (r : Reg) (s : State),
    (decode (commandWord 0x02 r 0) = .ok (.cmpeq r) ∧ ∃ t, exec (.cmpeq r) s = .next t ∧
      ReportsOnly s t { status := .ok, flag := eqv (s.reg r) (s.otherReg r), val := 0, dout := [] }) ∧
    (decode (commandWord 0x03 r 0) = .ok (.cmplt r) ∧ ∃ t, exec (.cmplt r) s = .next t ∧
      ReportsOnly s t { status := .ok, flag := decide (cmpv (s.reg r) (s.otherReg r) = .lt), val := 0, dout := [] }) ∧
    (decode (commandWord 0x04 r 0) = .ok (.cmpgt r) ∧ ∃ t, exec (.cmpgt r) s = .next t ∧
      ReportsOnly s t { status := .ok, flag := decide (cmpv (s.reg r) (s.otherReg r) = .gt), val := 0, dout := [] }) ∧
    (decode (commandWord 0x05 r 0) = .ok (.cmple r) ∧ ∃ t, exec (.cmple r) s = .next t ∧
      ReportsOnly s t { status := .ok, flag := decide (cmpv (s.reg r) (s.otherReg r) ≠ .gt), val := 0, dout := [] }) ∧
    (decode (commandWord 0x06 r 0) = .ok (.cmpge r) ∧ ∃ t, exec (.cmpge r) s = .next t ∧
      ReportsOnly s t { status := .ok, flag := decide (cmpv (s.reg r) (s.otherReg r) ≠ .lt), val := 0, dout := [] })

/-- 40_align_compare.md sections 3 and 4, in numbers (the spec derives the number forms of R45 and R46): at any two
widths the five comparisons report how the number of self stands to the number of other. -/
def Obligations.ComparisonsReportTheNumericOrder : Prop :=
  ∀ (r : Reg) (s : State),
    (∃ t, exec (.cmpeq r) s = .next t ∧ ReportsOnly s t
      { status := .ok, flag := decide (val (s.reg r) = val (s.otherReg r)), val := 0, dout := [] }) ∧
    (∃ t, exec (.cmplt r) s = .next t ∧ ReportsOnly s t
      { status := .ok, flag := decide (val (s.reg r) < val (s.otherReg r)), val := 0, dout := [] }) ∧
    (∃ t, exec (.cmpgt r) s = .next t ∧ ReportsOnly s t
      { status := .ok, flag := decide (val (s.reg r) > val (s.otherReg r)), val := 0, dout := [] }) ∧
    (∃ t, exec (.cmple r) s = .next t ∧ ReportsOnly s t
      { status := .ok, flag := decide (val (s.reg r) ≤ val (s.otherReg r)), val := 0, dout := [] }) ∧
    (∃ t, exec (.cmpge r) s = .next t ∧ ReportsOnly s t
      { status := .ok, flag := decide (val (s.reg r) ≥ val (s.otherReg r)), val := 0, dout := [] })

/-- 40_align_compare.md section 3, the laws of the comparator (R52, of which the spec derives clause (b)): symmetry,
exactly one of the three verdicts, widening compares equal, narrowing that drops a nonzero byte does not. -/
def Obligations.ComparatorLaws : Prop :=
  (∀ p q : List Byte, eqv p q = eqv q p ∧ (cmpv p q = .lt ↔ cmpv q p = .gt) ∧ (eqv p q = true ↔ cmpv p q = .eq)) ∧
  (∀ (N : Nat) (v : List Byte), v.length ≤ N → eqv (align N v) v = true) ∧
  ∀ (N : Nat) (v : List Byte) (i : Nat), N < v.length → i < v.length - N → byteAt v i ≠ 0 → eqv (align N v) v = false

/-! ## The shifter -/

/-- R53 to R56, 41_shift.md, all but the number forms, which the spec derives: SHR and SHL complete in every state and
for every count, and make each byte from a 16-bit window over two adjacent bytes of the old value. -/
def Obligations.ShiftersTakeWindowsOfAdjacentBytes : Prop :=
  ∀ (r : Reg) (k : Nat) (s : State),
    (k < 16777216 → decode (commandWord 0x08 r k) = .ok (.shr r k) ∧
      decode (commandWord 0x09 r k) = .ok (.shl r k)) ∧
    (∃ t, exec (.shr r k) s = .next t ∧ WritesOnly r s t ∧ ∀ i, i < s.width r →
      (byteAt (t.reg r) i).toNat =
        ((if k / 8 + 1 ≤ i then (byteAt (s.reg r) (i - k / 8 - 1)).toNat else 0) * 256 +
          (if k / 8 ≤ i then (byteAt (s.reg r) (i - k / 8)).toNat else 0)) / 2 ^ (k % 8) % 256) ∧
    (∃ t, exec (.shl r k) s = .next t ∧ WritesOnly r s t ∧ ∀ i, i < s.width r →
      (byteAt (t.reg r) i).toNat =
        ((if i + k / 8 < s.width r then (byteAt (s.reg r) (i + k / 8)).toNat else 0) * 256 +
          (if i + k / 8 + 1 < s.width r then (byteAt (s.reg r) (i + k / 8 + 1)).toNat else 0)) * 2 ^ (k % 8)
            % 65536 / 256)

/-- 41_shift.md section 1, in numbers (the spec derives the number forms of R53 and R54): a right shift divides by 2^k,
a left shift multiplies by 2^k modulo 2^(8N), and every bit moves by exactly k positions across byte boundaries. -/
def Obligations.ShiftsScaleByPowersOfTwo : Prop :=
  ∀ (r : Reg) (k : Nat) (s : State),
    (∃ t, exec (.shr r k) s = .next t ∧ WritesOnly r s t ∧ val (t.reg r) = val (s.reg r) / 2 ^ k ∧
      ∀ p, bit (t.reg r) p = bit (s.reg r) (p + k)) ∧
    (∃ t, exec (.shl r k) s = .next t ∧ WritesOnly r s t ∧
      val (t.reg r) = val (s.reg r) * 2 ^ k % 2 ^ (8 * s.width r) ∧
      ∀ p, p < 8 * s.width r → bit (t.reg r) p = (decide (k ≤ p) && bit (s.reg r) (p - k)))

/-- 41_shift.md section 1, the laws of the shifter (R57, of which the spec derives the counts above 8N and clause (f)):
a count of 0 changes nothing, a count of 8N or more gives zero, counts add. -/
def Obligations.ShiftCountsActAsTheLawsSay : Prop :=
  ∀ v : List Byte,
    shl v 0 = v ∧ shr v 0 = v ∧
    (∀ k, 8 * v.length ≤ k → shl v k = zero v.length ∧ shr v k = zero v.length) ∧
    ∀ j k, shl (shl v j) k = shl v (j + k) ∧ shr (shr v j) k = shr v (j + k)

/-! ## The adder and the subtractor -/

/-- R60 and R61, 42_add_sub.md: ADD completes in every state; its bytes and carries, counted from the least significant
end, are those of the true three-term sum, bytes beyond other are 0, and the last carry is dropped. With the spec's
own counter-example to a lost carry. -/
def Obligations.AddRipplesTheTrueCarry : Prop :=
  (∀ (r : Reg) (s : State), decode (commandWord 0x10 r 0) = .ok (.add r) ∧
    ∃ (t : State) (c : Nat → Nat), exec (.add r) s = .next t ∧ WritesOnly r s t ∧ c 0 = 0 ∧
      ∀ j, j < s.width r →
        (lsByte (t.reg r) j).toNat =
          ((lsByte (s.reg r) j).toNat + (lsByte (s.otherReg r) j).toNat + c j) % 256 ∧
        c (j + 1) = if 256 ≤ (lsByte (s.reg r) j).toNat + (lsByte (s.otherReg r) j).toNat + c j then 1 else 0) ∧
  add [0x00, 0xff, 0xff] [0x00, 0xff, 0x01] = [0x01, 0xff, 0x00]

/-- 42_add_sub.md section 1, in numbers (the spec derives the number form of R59): ADD is the sum modulo 2^(8N) at any
two widths. -/
def Obligations.AddIsTheModularSum : Prop :=
  ∀ (r : Reg) (s : State), ∃ t, exec (.add r) s = .next t ∧ WritesOnly r s t ∧
    val (t.reg r) = (val (s.reg r) + val (s.otherReg r)) % 2 ^ (8 * s.width r)

/-- 42_add_sub.md section 2, in numbers (the spec derives the number forms of R62 and R63): SUB is the difference
modulo 2^(8N) at any two widths, through a negation that is the additive inverse. -/
def Obligations.SubIsTheModularDifference : Prop :=
  (∀ (r : Reg) (s : State), decode (commandWord 0x11 r 0) = .ok (.sub r) ∧
    ∃ t, exec (.sub r) s = .next t ∧ WritesOnly r s t ∧
      (val (t.reg r) : Int) = ((val (s.reg r) : Int) - val (s.otherReg r)) % ((2 ^ (8 * s.width r) : Nat) : Int)) ∧
  ∀ v : List Byte, (neg v).length = v.length ∧ val (neg v) = (2 ^ (8 * v.length) - val v) % 2 ^ (8 * v.length)

/-- 42_add_sub.md section 3, the law "(a + b) - b == a" (R65(b), which the spec derives for unequal widths): SUB after
ADD restores self, in every state. -/
def Obligations.SubUndoesAdd : Prop :=
  ∀ (r : Reg) (s : State), ∃ t u, exec (.add r) s = .next t ∧ exec (.sub r) t = .next u ∧
    u.reg r = s.reg r ∧ u.otherReg r = s.otherReg r

/-! ## The multiplier -/

/-- 43_multiply.md section 1, in numbers (the spec derives the number form of R67): MUL is the product modulo 2^(8N) at
any two widths. -/
def Obligations.MulIsTheModularProduct : Prop :=
  ∀ (r : Reg) (s : State), decode (commandWord 0x18 r 0) = .ok (.mul r) ∧
    ∃ t, exec (.mul r) s = .next t ∧ WritesOnly r s t ∧
      val (t.reg r) = val (s.reg r) * val (s.otherReg r) % 2 ^ (8 * s.width r)

/-- 43_multiply.md section 2, what the internal checked multiply computes (R70, which the spec derives): overflow
exactly when the product does not fit, the exact product otherwise, the zero cases, and one set bit. -/
def Obligations.CheckedMultiplyIsExact : Prop :=
  ∀ l r : List Byte, r.length = l.length →
    ((mulc l r).1 = true ↔ 2 ^ (8 * l.length) ≤ val l * val r) ∧
    ((mulc l r).1 = false → (mulc l r).2 = mul l r ∧ val (mulc l r).2 = val l * val r) ∧
    (l = zero l.length ∨ r = zero l.length → mulc l r = (false, zero l.length)) ∧
    ∀ i, i < 8 * l.length → val r = 2 ^ i →
      mulc l r = if 8 * l.length < rank l + i then (true, zero l.length) else (false, shl l i)

/-- The source's identity laws (42_add_sub.md section 3, 43_multiply.md section 3), as commands: adding zero and
multiplying by one leave self as it was, multiplying by zero gives zero. -/
def Obligations.ZeroAndOneActAsIdentities : Prop :=
  ∀ (r : Reg) (s : State),
    (val (s.otherReg r) = 0 →
      (∃ t, exec (.add r) s = .next t ∧ t.reg r = s.reg r) ∧
      (∃ t, exec (.mul r) s = .next t ∧ t.reg r = zero (s.width r))) ∧
    (val (s.otherReg r) = 1 → ∃ t, exec (.mul r) s = .next t ∧ t.reg r = s.reg r)

/-! ## The divider -/

/-- R102, 60_exceptions.md: DIV and MOD raise DivideByZeroError when other is zero, every byte of it, for any dividend,
with no info and nothing written; and for no other divisor. -/
def Obligations.DivideByZeroForAnyDividend : Prop :=
  ∀ (r : Reg) (s : State),
    ((∀ j, j < s.width r.other → memRead s r.other j = 0) →
      (∃ t, exec (.div r) s = .next t ∧
        ReportsOnly s t { status := .divideByZeroError, flag := false, val := 0, dout := [] }) ∧
      (∃ t, exec (.mod r) s = .next t ∧
        ReportsOnly s t { status := .divideByZeroError, flag := false, val := 0, dout := [] })) ∧
    (∀ j, j < s.width r.other → memRead s r.other j ≠ 0 →
      (∃ t a, exec (.div r) s = .next t ∧ t.resp = some a ∧ a.status = .ok) ∧
      (∃ t a, exec (.mod r) s = .next t ∧ t.resp = some a ∧ a.status = .ok))

/-- 44_divide_modulo.md section 1 (the spec derives the number form, R75): for a nonzero divisor of any width, DIV
completes and writes the floor of the exact quotient. -/
def Obligations.DivIsTheFloorQuotient : Prop :=
  ∀ (r : Reg) (s : State), decode (commandWord 0x20 r 0) = .ok (.div r) ∧
    (val (s.otherReg r) ≠ 0 → ∃ t, exec (.div r) s = .next t ∧ WritesOnly r s t ∧
      val (t.reg r) = val (s.reg r) / val (s.otherReg r))

/-- 44_divide_modulo.md section 2 (the spec derives the number form of R77): for a nonzero divisor of any width, MOD
completes and writes the exact remainder. -/
def Obligations.ModIsTheRemainder : Prop :=
  ∀ (r : Reg) (s : State), decode (commandWord 0x21 r 0) = .ok (.mod r) ∧
    (val (s.otherReg r) ≠ 0 → ∃ t, exec (.mod r) s = .next t ∧ WritesOnly r s t ∧
      val (t.reg r) = val (s.reg r) % val (s.otherReg r))

/-- 44_divide_modulo.md section 3, the division-remainder law (R79, of which the spec derives clauses (c) and (e)), at
any two widths: dividend = divisor * quotient + remainder, and the remainder is below the divisor. -/
def Obligations.QuotientAndRemainderRebuildTheDividend : Prop :=
  ∀ (r : Reg) (s : State), val (s.otherReg r) ≠ 0 →
    ∃ q m, exec (.div r) s = .next q ∧ exec (.mod r) s = .next m ∧
      val (s.reg r) = val (s.otherReg r) * val (q.reg r) + val (m.reg r) ∧ val (m.reg r) < val (s.otherReg r)

/-- 44_divide_modulo.md section 1, the proof of R75, which the spec derives: after its last iteration the divider's
dropped remainder is the exact remainder, and the result the exact quotient. -/
def Obligations.DividerEndsWithTheExactRemainder : Prop :=
  ∀ a d : List Byte, d.length = a.length → val d ≠ 0 →
    val (divIter d (8 * a.length) (divStart a)).rem = val a % val d ∧
    val (divIter d (8 * a.length) (divStart a)).res = val a / val d

/-! ## The bitwise operators -/

/-- R80, R81 and R82, 45_bitwise.md: in an instance of equal widths AND, OR and XOR complete and combine byte by byte;
in any other their words are illegal commands and write nothing. -/
def Obligations.BitwiseCombinesBytesOfEqualWidths : Prop :=
  ∀ (r : Reg) (s : State),
    decode (commandWord 0x28 r 0) = .ok (.and r) ∧ decode (commandWord 0x29 r 0) = .ok (.or r) ∧
    decode (commandWord 0x2A r 0) = .ok (.xor r) ∧
    (s.A.length = s.B.length →
      (∃ t, exec (.and r) s = .next t ∧ WritesOnly r s t ∧
        ∀ i, i < s.width r → memRead t r i = memRead s r i &&& memRead s r.other i) ∧
      (∃ t, exec (.or r) s = .next t ∧ WritesOnly r s t ∧
        ∀ i, i < s.width r → memRead t r i = memRead s r i ||| memRead s r.other i) ∧
      (∃ t, exec (.xor r) s = .next t ∧ WritesOnly r s t ∧
        ∀ i, i < s.width r → memRead t r i = memRead s r i ^^^ memRead s r.other i)) ∧
    (s.A.length ≠ s.B.length → ∀ i ∈ [Instr.and r, Instr.or r, Instr.xor r], ∃ t, exec i s = .next t ∧
      ReportsOnly s t { status := .illegalCommand, flag := false, val := 0, dout := [] })

/-- R83, 45_bitwise.md, all but its number form, which the spec derives: NOT completes in every instance, inverts every
byte, and twice restores. -/
def Obligations.NotInvertsEveryByte : Prop :=
  ∀ (r : Reg) (s : State), decode (commandWord 0x2B r 0) = .ok (.not r) ∧
    ∃ t, exec (.not r) s = .next t ∧ WritesOnly r s t ∧
      (∀ i, i < s.width r → (memRead t r i).toNat = 255 - (memRead s r i).toNat) ∧
      ∃ u, exec (.not r) t = .next u ∧ u.reg r = s.reg r

/-! ## The hex codec -/

/-- R85, 46_hex_codec.md: the alphabet in, case-insensitive, and out, lowercase; nothing else is in it. -/
def Obligations.HexAlphabetIsTwentyTwoCharacters : Prop :=
  (∀ d, d < 10 → hexval (BitVec.ofNat 8 (0x30 + d)) = some d ∧ hexchar d = BitVec.ofNat 8 (0x30 + d)) ∧
  (∀ d, d < 6 → hexval (BitVec.ofNat 8 (0x61 + d)) = some (10 + d) ∧
    hexval (BitVec.ofNat 8 (0x41 + d)) = some (10 + d) ∧ hexchar (10 + d) = BitVec.ofNat 8 (0x61 + d)) ∧
  ∀ c : Byte, (hexval c).isSome = true ↔
    (0x30 ≤ c.toNat ∧ c.toNat ≤ 0x39) ∨ (0x61 ≤ c.toNat ∧ c.toNat ≤ 0x66) ∨ (0x41 ≤ c.toNat ∧ c.toNat ≤ 0x46)

/-- R86, 46_hex_codec.md: HEXIN tests the length, then the characters in string order, and where both hold writes the
value of the pairs, most significant nibble first. -/
def Obligations.HexinParsesOrReportsWhatIsWrong : Prop :=
  ∀ (r : Reg) (s : State), decode (commandWord 0x30 r 0) = .ok (.hexin r) ∧
    (s.din.length ≠ 2 * s.width r → ∃ t, exec (.hexin r) s = .next t ∧
      ReportsOnly s t { status := .parseError, flag := false, val := BitVec.ofNat 24 s.din.length, dout := [] }) ∧
    (s.din.length = 2 * s.width r → ∀ j, j < 2 * s.width r → hexval (byteAt s.din j) = none →
      (∀ k, k < j → hexval (byteAt s.din k) ≠ none) → ∃ t, exec (.hexin r) s = .next t ∧
        ReportsOnly s t { status := .parseError, flag := true, val := (byteAt s.din j).setWidth 24, dout := [] }) ∧
    (s.din.length = 2 * s.width r → (∀ j, j < 2 * s.width r → hexval (byteAt s.din j) ≠ none) →
      ∃ t, exec (.hexin r) s = .next t ∧ WritesOnly r s t ∧ ∀ i, i < s.width r →
        ∀ h l, hexval (byteAt s.din (2 * i)) = some h → hexval (byteAt s.din (2 * i + 1)) = some l →
          (memRead t r i).toNat = h * 16 + l)

/-- R87 and R88, 46_hex_codec.md: HEXOUT and HEXOUTX complete in every state, write nothing and give the 2N characters
of self, most significant nibble first, the second after the two characters of the marker. -/
def Obligations.HexoutSerializesEveryByte : Prop :=
  ∀ (r : Reg) (s : State), decode (commandWord 0x31 r 0) = .ok (.hexout r) ∧
    decode (commandWord 0x32 r 0) = .ok (.hexoutx r) ∧
    ∃ d : List Byte, d.length = 2 * s.width r ∧
      (∀ i, i < s.width r → byteAt d (2 * i) = hexchar ((memRead s r i).toNat / 16) ∧
        byteAt d (2 * i + 1) = hexchar ((memRead s r i).toNat % 16)) ∧
      (∃ t, exec (.hexout r) s = .next t ∧
        ReportsOnly s t { status := .ok, flag := false, val := 0, dout := d }) ∧
      ∃ t, exec (.hexoutx r) s = .next t ∧
        ReportsOnly s t { status := .ok, flag := false, val := 0, dout := 0x30 :: 0x78 :: d }

/-- R89, 46_hex_codec.md, its quoted law: what HEXOUT gives, HEXIN reads back, into a register of that width holding
anything; with the `0x` marker it does not; and a string of wrong length or with a character outside the alphabet is
rejected. All but the sentence on the other way round, which the spec derives. -/
def Obligations.HexRoundTrip : Prop :=
  (∀ (r : Reg) (s : State), ∃ t a, exec (.hexout r) s = .next t ∧ t.resp = some a ∧
    ∀ u : State, u.width r = s.width r →
      (∃ u', exec (.hexin r) { u with din := a.dout } = .next u' ∧ u'.reg r = s.reg r ∧
        u'.otherReg r = u.otherReg r) ∧
      ∃ u' b, exec (.hexin r) { u with din := 0x30 :: 0x78 :: a.dout } = .next u' ∧ u'.resp = some b ∧
        b.status = .parseError) ∧
  ∀ (r : Reg) (s : State), (s.din.length ≠ 2 * s.width r ∨ ∃ c ∈ s.din, hexval c = none) →
    ∃ t a, exec (.hexin r) s = .next t ∧ t.resp = some a ∧ a.status = .parseError

/-! ## Bit accessor, rank, construction, raw access -/

/-- R90, 47_access.md: GETBIT reports the bit, and raises RangeError from position 8N on. -/
def Obligations.GetbitReadsOneBit : Prop :=
  ∀ (r : Reg) (pos : Nat) (s : State),
    (pos < 16777216 → decode (commandWord 0x38 r pos) = .ok (.getbit r pos)) ∧
    (8 * s.width r ≤ pos → ∃ t, exec (.getbit r pos) s = .next t ∧
      ReportsOnly s t { status := .rangeError, flag := false, val := BitVec.ofNat 24 pos, dout := [] }) ∧
    (pos < 8 * s.width r → ∃ t, exec (.getbit r pos) s = .next t ∧
      ReportsOnly s t
        { status := .ok
          flag := decide ((memRead s r (s.width r - 1 - pos / 8)).toNat / 2 ^ (pos % 8) % 2 = 1)
          val := 0
          dout := [] })

/-- R91 and R92, 47_access.md, all but the number form, which the spec derives: RANK completes and reports one plus the
position of the highest set bit, 0 for the zero value, in a register of an instance. -/
def Obligations.RankIsTheHighestSetBit : Prop :=
  ∀ (r : Reg) (s : State), decode (commandWord 0x39 r 0) = .ok (.rank r) ∧
    (Memory.wf (s.reg r) = true → ∃ (t : State) (n : BitVec 24), exec (.rank r) s = .next t ∧
      ReportsOnly s t { status := .ok, flag := false, val := n, dout := [] } ∧
      ((∀ p, p < 8 * s.width r → bit (s.reg r) p = false) → n.toNat = 0) ∧
      ∀ p, p < 8 * s.width r → bit (s.reg r) p = true →
        (∀ q, p < q → q < 8 * s.width r → bit (s.reg r) q = false) → n.toNat = p + 1)

/-- R93, 47_access.md: CLR completes in every state and gives self the content that reset gives it. -/
def Obligations.ClrGivesTheResetContent : Prop :=
  ∀ (r : Reg) (s : State), decode (commandWord 0x40 r 0) = .ok (.clr r) ∧
    ∃ t, exec (.clr r) s = .next t ∧ WritesOnly r s t ∧ t.reg r = zero (s.width r) ∧
      t.reg r = (State.resetOf s.A.length s.B.length).reg r ∧ ∀ i, i < s.width r → memRead t r i = 0

/-- R94, 47_access.md: RDB reports the byte, zero-extended, and raises RangeError from index N on. -/
def Obligations.RdbReadsOneByte : Prop :=
  ∀ (r : Reg) (idx : Nat) (s : State),
    (idx < 65536 → decode (commandWord 0x41 r (idx * 256)) = .ok (.rdb r idx)) ∧
    (idx < s.width r → ∃ t, exec (.rdb r idx) s = .next t ∧
      ReportsOnly s t { status := .ok, flag := false, val := (memRead s r idx).setWidth 24, dout := [] }) ∧
    (s.width r ≤ idx → ∃ t, exec (.rdb r idx) s = .next t ∧
      ReportsOnly s t { status := .rangeError, flag := false, val := BitVec.ofNat 24 idx, dout := [] })

/-- R95, 47_access.md: WRB writes the byte and no other, and raises RangeError from index N on, writing nothing. -/
def Obligations.WrbWritesOneByte : Prop :=
  ∀ (r : Reg) (idx : Nat) (v8 : Byte) (s : State),
    (idx < 65536 → decode (commandWord 0x42 r (idx * 256 + v8.toNat)) = .ok (.wrb r idx v8)) ∧
    (idx < s.width r → ∃ t, exec (.wrb r idx v8) s = .next t ∧ WritesOnly r s t ∧ memRead t r idx = v8 ∧
      ∀ q j, (q, j) ≠ (r, idx) → memRead t q j = memRead s q j) ∧
    (s.width r ≤ idx → ∃ t, exec (.wrb r idx v8) s = .next t ∧
      ReportsOnly s t { status := .rangeError, flag := false, val := BitVec.ofNat 24 idx, dout := [] })

/-- R96 and R97, 47_access.md: DUMP and BITS complete in every state and write nothing; the first gives the N bytes,
the second the 8N bits as items 0x00 and 0x01, both from the most significant end. -/
def Obligations.DumpAndBitsGiveTheWholeValue : Prop :=
  ∀ (r : Reg) (s : State),
    decode (commandWord 0x43 r 0) = .ok (.dump r) ∧ decode (commandWord 0x44 r 0) = .ok (.bits r) ∧
    (∃ t d, exec (.dump r) s = .next t ∧ ReportsOnly s t { status := .ok, flag := false, val := 0, dout := d } ∧
      d.length = s.width r ∧ ∀ i, i < s.width r → byteAt d i = memRead s r i) ∧
    ∃ t d, exec (.bits r) s = .next t ∧ ReportsOnly s t { status := .ok, flag := false, val := 0, dout := d } ∧
      d.length = 8 * s.width r ∧
      ∀ j, j < 8 * s.width r → byteAt d j = if bit (s.reg r) (8 * s.width r - 1 - j) then 0x01 else 0x00

/-- 20_memory.md section 2 (R23, whose last sentence the spec derives): reading a register byte by byte with RDB gives
exactly the sequence DUMP gives. -/
def Obligations.ReadingByteByByteGivesTheDump : Prop :=
  ∀ (r : Reg) (s : State), s.width r ≤ 65535 →
    ∃ d a, exec (.dump r) s = .next d ∧ d.resp = some a ∧ a.dout.length = s.width r ∧
      ∀ i, i < s.width r → ∃ t b, exec (.rdb r i) d = .next t ∧ t.resp = some b ∧ b.status = .ok ∧
        b.val.toNat = (byteAt a.dout i).toNat

/-- 20_memory.md section 6, clause (a) of R28: a WRB at an index followed by an RDB at that index returns the byte
written. -/
def Obligations.AWrittenByteIsReadBack : Prop :=
  ∀ (r : Reg) (idx : Nat) (v8 : Byte) (s : State), idx < s.width r →
    ∃ t u, exec (.wrb r idx v8) s = .next t ∧ exec (.rdb r idx) t = .next u ∧
      ReportsOnly t u { status := .ok, flag := false, val := v8.setWidth 24, dout := [] }

/-- 70_reset_and_hazards.md section 2 (R115): a host can load any value into a register with WRB byte by byte. The run
of N commands, one for each byte, ends with that value in the register and the other register as it was. -/
def Obligations.AnyValueCanBeLoadedByteByByte : Prop :=
  ∀ (r : Reg) (s : State) (v : List Byte), v.length = s.width r → v.length ≤ 65535 →
    ∃ t, Host.Core.run Sys2Proof.core v.length
        { s with port := (List.range v.length).map fun i =>
          { word := commandWord 0x42 r (i * 256 + (byteAt v i).toNat), din := [] } } = .next t ∧
      t.reg r = v ∧ t.otherReg r = s.otherReg r ∧ t.port = []

/-- 70_reset_and_hazards.md section 1 (R114, whose examples the spec derives): the first command after reset, at every
pair of widths: DIV.A answers DivideByZeroError, CMPEQ.A flag 1, RANK.A 0. -/
def Obligations.FirstCommandsAfterReset : Prop :=
  ∀ S T : Nat,
    (∃ t, step { State.resetOf S T with port := [{ word := 0x20000000, din := [] }] } = .next t ∧
      ReportsOnly (State.resetOf S T) t
        { status := .divideByZeroError, flag := false, val := 0, dout := [] }) ∧
    (∃ t, step { State.resetOf S T with port := [{ word := 0x02000000, din := [] }] } = .next t ∧
      ReportsOnly (State.resetOf S T) t { status := .ok, flag := true, val := 0, dout := [] }) ∧
    (∃ t, step { State.resetOf S T with port := [{ word := 0x39000000, din := [] }] } = .next t ∧
      ReportsOnly (State.resetOf S T) t { status := .ok, flag := false, val := 0, dout := [] })
end

