-- ==== Sys2Proof/Laws/Value.lean ====
section
/-! SUPPORT. What the value functions compute, in numbers: the bytes, bits and rank of a value are the base-256 digits,
the binary digits and the bit length of its number, and a value is determined by its width and its number
(10_state.md rule R10(c)). -/

namespace Sys2Proof.Machine

/-! ## Sequences built by index -/

@[simp] theorem build_length (N : Nat) (f : Nat → Byte) : (build N f).length = N := by simp [build]

theorem byteAt_build {N i : Nat} (f : Nat → Byte) (h : i < N) : byteAt (build N f) i = f i := by
  simp [byteAt, build, h]

theorem build_succ (N : Nat) (f : Nat → Byte) : build (N + 1) f = f 0 :: build N fun i => f (i + 1) := by
  simp [build, List.range_succ_eq_map, Function.comp_def]

theorem build_congr {N : Nat} {f g : Nat → Byte} (h : ∀ i, i < N → f i = g i) : build N f = build N g :=
  List.map_congr_left fun i hi => h i (List.mem_range.1 hi)

theorem build_byteAt (v : List Byte) : build v.length (byteAt v) = v := by
  refine List.ext_getElem (by simp) fun i h₁ h₂ => ?_
  simp [build, byteAt, h₂]

@[simp] theorem bytesOf_length (N n : Nat) : (bytesOf N n).length = N := by simp [bytesOf]

@[simp] theorem zero_length (N : Nat) : (zero N).length = N := by simp [zero]

@[simp] theorem one_length (N : Nat) : (one N).length = N := by simp [one]

theorem byteAtInt_natCast (v : List Byte) (i : Nat) : byteAtInt v i = byteAt v i := by
  unfold byteAtInt byteAt
  split
  · simp
  · rename_i h
    rw [List.getD_eq_default _ _ (by omega)]

theorem byteAtInt_neg (v : List Byte) {i : Int} (h : i < 0) : byteAtInt v i = 0 := by
  unfold byteAtInt
  rw [if_neg (by omega)]

/-- An index counted from the most significant end, read from the least significant end. -/
theorem byteAtInt_eq_lsByte (v : List Byte) {i : Int} {j : Nat} (h : i = (v.length : Int) - 1 - j) :
    byteAtInt v i = lsByte v j := by
  unfold byteAtInt lsByte
  by_cases hj : j < v.length
  · rw [if_pos (by omega), if_pos hj]
    congr 1
    omega
  · rw [if_neg (by omega), if_neg hj]

theorem lsByte_eq_byteAt (v : List Byte) {j : Nat} (h : j < v.length) :
    lsByte v j = byteAt v (v.length - 1 - j) := by simp [lsByte, h]

theorem byteAt_eq_lsByte (v : List Byte) {i : Nat} (h : i < v.length) :
    byteAt v i = lsByte v (v.length - 1 - i) := by
  rw [lsByte_eq_byteAt v (by omega)]
  congr 1
  omega

/-! ## Numbers -/

theorem val_lt (v : List Byte) : val v < 256 ^ v.length := by
  induction v with
  | nil => simp [val]
  | cons b bs ih =>
    have hb : b.toNat < 256 := b.isLt
    simp only [val, List.length_cons, Nat.pow_succ]
    calc b.toNat * 256 ^ bs.length + val bs < b.toNat * 256 ^ bs.length + 256 ^ bs.length := by omega
      _ = (b.toNat + 1) * 256 ^ bs.length := by ring
      _ ≤ 256 * 256 ^ bs.length := Nat.mul_le_mul_right _ hb
      _ = 256 ^ bs.length * 256 := by ring

theorem pow256 (N : Nat) : 256 ^ N = 2 ^ (8 * N) := by
  rw [show (256 : Nat) = 2 ^ 8 from rfl, ← Nat.pow_mul]

theorem val_lt_two_pow (v : List Byte) : val v < 2 ^ (8 * v.length) := pow256 v.length ▸ val_lt v

theorem val_append (v w : List Byte) : val (v ++ w) = val v * 256 ^ w.length + val w := by
  induction v with
  | nil => simp [val]
  | cons b bs ih =>
    simp only [List.cons_append, val, ih, List.length_append, Nat.pow_add]
    ring

/-- The bytes of a value are the base-256 digits of its number. -/
theorem lsByte_toNat (v : List Byte) (j : Nat) : (lsByte v j).toNat = val v / 256 ^ j % 256 := by
  induction v with
  | nil => simp [lsByte, val]
  | cons b bs ih =>
    have hb : b.toNat < 256 := b.isLt
    have hbs := val_lt bs
    rcases Nat.lt_trichotomy j bs.length with h | h | h
    · have hls : lsByte (b :: bs) j = lsByte bs j := by
        rw [lsByte_eq_byteAt _ (by simp; omega), lsByte_eq_byteAt _ h]
        simp only [byteAt, List.length_cons]
        rw [show bs.length + 1 - 1 - j = (bs.length - 1 - j) + 1 by omega, List.getD_cons_succ]
      obtain ⟨m, hm⟩ : ∃ m, bs.length = j + 1 + m := ⟨bs.length - (j + 1), by omega⟩
      rw [hls, ih, val, hm, Nat.pow_add, Nat.pow_succ]
      rw [show b.toNat * (256 ^ j * 256 * 256 ^ m) + val bs
          = val bs + 256 ^ j * (256 * (b.toNat * 256 ^ m)) by ring]
      rw [Nat.add_mul_div_left _ _ (by positivity), Nat.add_mul_mod_self_left]
    · subst h
      rw [lsByte_eq_byteAt _ (by simp)]
      simp only [byteAt, List.length_cons, Nat.add_sub_cancel, Nat.sub_self, List.getD_cons_zero, val]
      rw [show b.toNat * 256 ^ bs.length + val bs = val bs + 256 ^ bs.length * b.toNat by ring,
        Nat.add_mul_div_left _ _ (by positivity), Nat.div_eq_of_lt hbs]
      omega
    · have hlt : val (b :: bs) < 256 ^ j :=
        lt_of_lt_of_le (val_lt (b :: bs)) (Nat.pow_le_pow_right (by norm_num) (by simp; omega))
      rw [Nat.div_eq_of_lt hlt]
      simp [lsByte, show ¬ j < bs.length + 1 by omega]

theorem byteAt_toNat (v : List Byte) {i : Nat} (h : i < v.length) :
    (byteAt v i).toNat = val v / 256 ^ (v.length - 1 - i) % 256 := by
  rw [byteAt_eq_lsByte v h, lsByte_toNat]

/-- A value built from the digits of `n` has the number `n`, wrapped at the width. -/
theorem val_build {N n : Nat} {f : Nat → Byte} (h : ∀ i, i < N → (f i).toNat = n / 256 ^ (N - 1 - i) % 256) :
    val (build N f) = n % 256 ^ N := by
  induction N generalizing f with
  | zero => simp [build, val, Nat.mod_one]
  | succ N ih =>
    rw [build_succ, val, build_length, ih, h 0 (by omega)]
    · simp only [Nat.add_sub_cancel, Nat.sub_zero]
      rw [Nat.pow_succ, Nat.mod_mul]
      ring
    · intro i hi
      rw [h (i + 1) (by omega)]
      congr 3
      omega

/-- `val(bytes_N(n)) = n mod 256^N`. -/
theorem val_bytesOf (N n : Nat) : val (bytesOf N n) = n % 256 ^ N :=
  val_build fun i _ => by simp

@[simp] theorem val_zero (N : Nat) : val (zero N) = 0 := by simp [zero, val_bytesOf]

theorem val_one {N : Nat} (h : 1 ≤ N) : val (one N) = 1 := by
  rw [one, val_bytesOf, Nat.mod_eq_of_lt]
  exact Nat.one_lt_pow (by omega) (by norm_num)

/-- A value is determined by its width and its number (R10(c)). -/
theorem val_inj {v w : List Byte} (hl : v.length = w.length) (h : val v = val w) : v = w := by
  rw [← build_byteAt v, ← build_byteAt w, hl]
  refine build_congr fun i hi => BitVec.eq_of_toNat_eq ?_
  rw [byteAt_toNat v (by omega), byteAt_toNat w hi, h, hl]

theorem eq_bytesOf_of_val {v : List Byte} {N n : Nat} (hl : v.length = N) (h : val v = n % 256 ^ N) :
    v = bytesOf N n :=
  val_inj (by simp [hl]) (by rw [h, val_bytesOf])

theorem bytesOf_val (v : List Byte) : bytesOf v.length (val v) = v :=
  (eq_bytesOf_of_val rfl (Nat.mod_eq_of_lt (val_lt v)).symm).symm

theorem zero_eq_replicate (N : Nat) : zero N = List.replicate N 0 := by
  refine List.ext_getElem (by simp) fun i h₁ h₂ => ?_
  simp [zero, bytesOf, build]

theorem val_eq_zero_iff (v : List Byte) : val v = 0 ↔ v.all (· == 0) = true := by
  induction v with
  | nil => simp [val]
  | cons b bs ih =>
    have hpos : 0 < 256 ^ bs.length := by positivity
    simp only [val, List.all_cons, Bool.and_eq_true, ← ih, beq_iff_eq, Nat.add_eq_zero_iff, Nat.mul_eq_zero]
    refine and_congr_left fun _ => ⟨?_, fun h => by simp [h]⟩
    rintro (h | h)
    · exact BitVec.eq_of_toNat_eq (by simpa using h)
    · omega

/-! ## Bits and rank -/

/-- The bits of a value are the binary digits of its number. -/
theorem bit_eq_testBit (v : List Byte) (p : Nat) : bit v p = (val v).testBit p := by
  have hp : val v / 256 ^ (p / 8) % 256 / 2 ^ (p % 8) % 2 = val v / 2 ^ p % 2 := by
    have h2 : (2 : Nat) ^ p = 256 ^ (p / 8) * 2 ^ (p % 8) := by
      rw [pow256, ← Nat.pow_add]
      congr 1
      omega
    rw [h2, ← Nat.div_div_eq_div_mul]
    generalize val v / 256 ^ (p / 8) = u
    have hs : p % 8 < 8 := Nat.mod_lt _ (by norm_num)
    generalize p % 8 = s at hs
    interval_cases s <;> omega
  rw [bit, lsByte_toNat, hp, Nat.testBit_eq_decide_div_mod_eq]
  rfl

theorem rankBelow_le_iff (v : List Byte) (m n : Nat) :
    rankBelow v m ≤ n ↔ ∀ p, n ≤ p → p < m → bit v p = false := by
  induction m with
  | zero => simp [rankBelow]
  | succ m ih =>
    unfold rankBelow
    split
    · rename_i hb
      constructor
      · intro h p h₁ h₂
        omega
      · intro h
        by_contra hc
        simp [h m (by omega) (by omega)] at hb
    · rename_i hb
      rw [ih]
      refine ⟨fun h p h₁ h₂ => ?_, fun h p h₁ h₂ => h p h₁ (by omega)⟩
      rcases Nat.lt_succ_iff_lt_or_eq.1 h₂ with h₃ | rfl
      · exact h p h₁ h₃
      · simpa using hb

/-- The rank is the bit length: the least `n` with `val(v) < 2^n` (R92). -/
theorem rank_le_iff (v : List Byte) (n : Nat) : rank v ≤ n ↔ val v < 2 ^ n := by
  rw [rank, rankBelow_le_iff]
  constructor
  · intro h
    refine Nat.lt_pow_two_of_testBit _ fun p hp => ?_
    by_cases hp' : p < 8 * v.length
    · rw [← bit_eq_testBit, h p hp hp']
    · exact Nat.testBit_lt_two_pow (lt_of_lt_of_le (val_lt_two_pow v)
        (Nat.pow_le_pow_right (by norm_num) (by omega)))
  · intro h p h₁ _
    rw [bit_eq_testBit]
    exact Nat.testBit_lt_two_pow (lt_of_lt_of_le h (Nat.pow_le_pow_right (by norm_num) h₁))

theorem rank_le_width (v : List Byte) : rank v ≤ 8 * v.length := (rank_le_iff v _).2 (val_lt_two_pow v)

/-! ## Sequences byte by byte -/

theorem byteAt_take {v : List Byte} {n i : Nat} (h : i < n) : byteAt (v.take n) i = byteAt v i := by
  simp [byteAt, List.getD_eq_getElem?_getD, h]

theorem byteAt_drop (v : List Byte) (n i : Nat) : byteAt (v.drop n) i = byteAt v (n + i) := by
  simp [byteAt, List.getD_eq_getElem?_getD, List.getElem?_drop]

/-- Two values of one width with the same bytes are the same value. -/
theorem eq_of_byteAt {v w : List Byte} (hl : v.length = w.length) (h : ∀ i, i < v.length → byteAt v i = byteAt w i) :
    v = w := by
  refine List.ext_getElem hl fun i h₁ h₂ => ?_
  simpa [byteAt, h₁, h₂] using h i h₁

/-- The number is 0 exactly when every byte is. -/
theorem val_eq_zero_iff_byteAt (v : List Byte) : val v = 0 ↔ ∀ j, j < v.length → byteAt v j = 0 := by
  constructor
  · intro h j hj
    refine BitVec.eq_of_toNat_eq ?_
    rw [byteAt_toNat v hj, h]
    simp
  · intro h
    rw [val_eq_zero_iff, List.all_eq_true]
    intro x hx
    obtain ⟨i, hi, rfl⟩ := List.getElem_of_mem hx
    simpa [byteAt, hi] using h i hi

/-- A read `m` bytes towards the most significant end (R53). -/
theorem byteAtInt_sub (v : List Byte) {i : Nat} (h : i < v.length) (m : Nat) :
    byteAtInt v ((i : Int) - (m : Nat)) = if m ≤ i then byteAt v (i - m) else 0 := by
  unfold byteAtInt
  split
  · rw [if_pos (by omega)]
    congr 1
    omega
  · rw [if_neg (by omega)]

/-- The first mismatch, most significant first, decides between two values of one width (R46). -/
theorem val_lt_of_first_mismatch {v w : List Byte} (hl : v.length = w.length) {i : Nat} (hi : i < v.length)
    (he : ∀ j, j < i → byteAt v j = byteAt w j) (hlt : (byteAt w i).toNat < (byteAt v i).toNat) : val w < val v := by
  induction v generalizing w i with
  | nil => simp at hi
  | cons a v ih =>
    cases w with
    | nil => simp at hl
    | cons b w =>
      have hl' : v.length = w.length := by simpa using hl
      simp only [val, hl']
      cases i with
      | zero =>
        have hab : b.toNat < a.toNat := by simpa [byteAt] using hlt
        have := val_lt w
        nlinarith
      | succ i =>
        obtain rfl : a = b := by simpa [byteAt] using he 0 (by omega)
        have := ih hl' (by simpa using hi) (fun j hj => by simpa [byteAt] using he (j + 1) (by omega))
          (by simpa [byteAt] using hlt)
        omega

theorem rank_eq_succ {v : List Byte} {p : Nat} (hb : bit v p = true)
    (hq : ∀ q, p < q → q < 8 * v.length → bit v q = false) : rank v = p + 1 := by
  have h₁ : rank v ≤ p + 1 := by
    rw [rank, rankBelow_le_iff]
    exact fun q h₁ h₂ => hq q (by omega) h₂
  have h₂ : ¬ rank v ≤ p := by
    rw [rank_le_iff]
    intro h
    rw [bit_eq_testBit, Nat.testBit_lt_two_pow h] at hb
    cases hb
  omega

/-! ## The form of a byte space -/

theorem Memory.wf_iff (m : List Byte) : Memory.wf m = true ↔ 1 ≤ m.length ∧ m.length ≤ 65535 := by
  rw [Memory.wf, Bool.and_eq_true, decide_eq_true_iff, decide_eq_true_iff]
  rfl

/-- The form depends on the number of bytes alone. -/
theorem Memory.wf_of_length {m m' : List Byte} (h : m'.length = m.length) : Memory.wf m' = Memory.wf m := by
  rw [Memory.wf, Memory.wf, h]

end Sys2Proof.Machine
end

