-- ==== Sys2Proof/Laws/Align.lean ====
section
/-! SUPPORT. The alignment selector in numbers and byte by byte (40_align_compare.md rule R43). -/

namespace Sys2Proof.Machine

@[simp] theorem align_length (N : Nat) (v : List Byte) : (align N v).length = N := by simp [align]

/-- Counted from the least significant end, the bytes stay where they are. -/
theorem lsByte_align (N : Nat) (v : List Byte) {j : Nat} (h : j < N) : lsByte (align N v) j = lsByte v j := by
  rw [lsByte_eq_byteAt _ (by simpa using h), align_length, align, byteAt_build _ (by omega)]
  exact byteAtInt_eq_lsByte v (by omega)

/-- `val(align_N(v)) = val(v) mod 256^N`. -/
theorem val_align (N : Nat) (v : List Byte) : val (align N v) = val v % 256 ^ N := by
  refine val_build fun i hi => ?_
  rw [byteAtInt_eq_lsByte v (j := N - 1 - i) (by omega), lsByte_toNat]

theorem val_align_of_le {N : Nat} {v : List Byte} (h : v.length ≤ N) : val (align N v) = val v := by
  rw [val_align, Nat.mod_eq_of_lt]
  exact lt_of_lt_of_le (val_lt v) (Nat.pow_le_pow_right (by norm_num) h)

theorem align_self (v : List Byte) : align v.length v = v := val_inj (by simp) (val_align_of_le le_rfl)

end Sys2Proof.Machine
end

