-- ==== Sys2Proof/Laws/AddSub.lean ====
section
/-! SUPPORT. The adder and the subtractor in numbers (42_add_sub.md rules R59, R62, R63). -/

namespace Sys2Proof.Machine

theorem addLow_length (a b : List Byte) (j : Nat) : (addLow a b j).2.length = j := by
  induction j with
  | zero => rfl
  | succ j ih => simp [addLow, ih]

@[simp] theorem add_length (a b : List Byte) : (add a b).length = a.length := addLow_length a b _

theorem mod_pow_succ (n j : Nat) : n % 256 ^ (j + 1) = n % 256 ^ j + 256 ^ j * (n / 256 ^ j % 256) := by
  rw [Nat.pow_succ, Nat.mod_mul]

/-- The invariant of the carry loop: the bytes so far and the carry are the exact sum of the low bytes. -/
theorem addLow_spec (a b : List Byte) (j : Nat) :
    val (addLow a b j).2 + 256 ^ j * (addLow a b j).1 = val a % 256 ^ j + val b % 256 ^ j := by
  induction j with
  | zero => simp [addLow, val, Nat.mod_one]
  | succ j ih =>
    have hl := addLow_length a b j
    simp only [addLow, val, hl, mod_pow_succ, lsByte_toNat, BitVec.toNat_ofNat]
    generalize (addLow a b j).1 = c at *
    generalize val (addLow a b j).2 = low at *
    generalize val a / 256 ^ j % 256 = x at *
    generalize val b / 256 ^ j % 256 = y at *
    have hm := Nat.mod_add_div (x + y + c) 256
    generalize (x + y + c) / 256 = q at *
    have h2 : (x + y + c) % 256 % 2 ^ 8 = (x + y + c) % 256 := by norm_num
    rw [h2]
    generalize (x + y + c) % 256 = t at *
    rw [Nat.pow_succ]
    generalize 256 ^ j = P at *
    have : P * (x + y + c) = P * (t + 256 * q) := by rw [hm]
    nlinarith

/-- `val(add_N(a, b)) = (val(a) + val(b)) mod 2^(8N)`. -/
theorem val_add (a b : List Byte) : val (add a b) = (val a + val b) % 256 ^ a.length := by
  have h := addLow_spec a b a.length
  have hlt := val_lt (addLow a b a.length).2
  rw [addLow_length] at hlt
  rw [Nat.add_mod, ← h, Nat.add_mul_mod_self_left, Nat.mod_eq_of_lt hlt, add]

@[simp] theorem notv_length (v : List Byte) : (notv v).length = v.length := by simp [notv]

theorem val_notv_add (v : List Byte) : val (notv v) + val v = 256 ^ v.length - 1 := by
  induction v with
  | nil => rfl
  | cons b bs ih =>
    have hb : b.toNat < 256 := b.isLt
    have hpos : 0 < 256 ^ bs.length := by positivity
    have hl : (notv bs).length = bs.length := notv_length bs
    simp only [notv, List.map_cons, val, List.length_cons, BitVec.toNat_ofNat, List.length_map] at *
    rw [Nat.mod_eq_of_lt (by omega : 255 - b.toNat < 2 ^ 8), Nat.pow_succ]
    generalize 256 ^ bs.length = P at *
    have : (255 - b.toNat) * P + b.toNat * P = 255 * P := by rw [← Nat.add_mul]; congr 1; omega
    omega

/-- `val(not_N(v)) = 256^N - 1 - val(v)` (R83). -/
theorem val_notv (v : List Byte) : val (notv v) = 256 ^ v.length - 1 - val v := by
  have := val_notv_add v
  omega

@[simp] theorem neg_length (v : List Byte) : (neg v).length = v.length := by simp [neg]

/-- `val(neg_N(v)) = (2^(8N) - val(v)) mod 2^(8N)`. -/
theorem val_neg (v : List Byte) : val (neg v) = (256 ^ v.length - val v) % 256 ^ v.length := by
  have h := val_lt v
  rw [neg, val_add, val_notv, notv_length, val_one le_rfl]
  congr 1
  omega

@[simp] theorem sub_length (a b : List Byte) : (sub a b).length = a.length := by simp [sub]

/-- `val(sub_N(a, b)) = (val(a) - val(b)) mod 2^(8N)`, in natural numbers. -/
theorem val_sub (a b : List Byte) :
    val (sub a b) = (val a + (256 ^ a.length - val b % 256 ^ a.length)) % 256 ^ a.length := by
  rw [sub, val_add, val_neg, val_align, align_length, Nat.add_mod_mod]

/-- The same over the integers. -/
theorem val_sub_int (a b : List Byte) :
    (val (sub a b) : Int) = ((val a : Int) - val b) % (256 ^ a.length : Nat) := by
  have hm : val b % 256 ^ a.length ≤ 256 ^ a.length := (Nat.mod_lt _ (by positivity)).le
  rw [val_sub]
  push_cast [Nat.cast_sub hm]
  rw [show (val a : Int) + (256 ^ a.length - (val b : Int) % 256 ^ a.length)
    = (val a - (val b : Int) % 256 ^ a.length) + 256 ^ a.length by ring, Int.add_emod_right, Int.sub_emod,
    Int.emod_emod, ← Int.sub_emod]

theorem val_sub_of_le {a b : List Byte} (h : val b ≤ val a) : val (sub a b) = val a - val b := by
  have ha := val_lt a
  have hi := val_sub_int a b
  rw [Int.emod_eq_of_lt (by omega) (by omega)] at hi
  omega

theorem val_add_of_lt {a b : List Byte} (h : val a + val b < 256 ^ a.length) : val (add a b) = val a + val b := by
  rw [val_add, Nat.mod_eq_of_lt h]

/-- Byte `j` of the sum (R59), counted from the least significant end: the three-term sum with the carry into it. -/
theorem lsByte_addLow (a b : List Byte) {n j : Nat} (h : j < n) : lsByte (addLow a b n).2 j =
    BitVec.ofNat 8 (((lsByte a j).toNat + (lsByte b j).toNat + (addLow a b j).1) % 256) := by
  induction n with
  | zero => omega
  | succ n ih =>
    have hl := addLow_length a b n
    simp only [addLow]
    by_cases hj : j = n
    · subst hj
      rw [lsByte_eq_byteAt _ (by simp [hl])]
      simp [byteAt, hl]
    · rw [← ih (by omega), lsByte_eq_byteAt _ (by simp [hl]; omega), lsByte_eq_byteAt (addLow a b n).2 (by omega)]
      simp only [List.length_cons, hl]
      rw [show n + 1 - 1 - j = (n - 1 - j) + 1 by omega]
      simp [byteAt]

/-- A carry is 0 or 1 (R60). -/
theorem addLow_carry_le (a b : List Byte) (j : Nat) : (addLow a b j).1 ≤ 1 := by
  induction j with
  | zero => simp [addLow]
  | succ j ih =>
    simp only [addLow]
    have h₁ := (lsByte a j).isLt
    have h₂ := (lsByte b j).isLt
    omega

end Sys2Proof.Machine
end

