-- ==== Sys2Proof/Laws/Compare.lean ====
section
/-! SUPPORT. The cross-width comparator in numbers (40_align_compare.md rules R45 and R46). -/

namespace Sys2Proof.Machine

theorem val_take_drop (v : List Byte) (n : Nat) :
    val v = val (v.take n) * 256 ^ (v.drop n).length + val (v.drop n) := by
  rw [← val_append, List.take_append_drop]

/-- The scan of two sequences of one width is the comparison of their numbers. -/
theorem scanBytes_eq_compare {v w : List Byte} (h : v.length = w.length) :
    scanBytes v w = compare (val v) (val w) := by
  induction v generalizing w with
  | nil =>
    cases w with
    | nil => simp [scanBytes, val]
    | cons _ _ => simp at h
  | cons x xs ih =>
    cases w with
    | nil => simp at h
    | cons y ys =>
      have hl : xs.length = ys.length := by simpa using h
      have hx := val_lt xs
      have hy := val_lt ys
      rw [hl] at hx
      simp only [scanBytes, val, hl]
      generalize 256 ^ ys.length = P at *
      split
      · rename_i he
        rw [ih hl, he]
        simp [compare, compareOfLessAndEq]
      · rename_i hne
        split
        · rename_i hgt
          symm
          rw [Nat.compare_eq_gt]
          nlinarith
        · rename_i hgt
          symm
          rw [Nat.compare_eq_lt]
          have : x.toNat + 1 ≤ y.toNat := by omega
          nlinarith

theorem cmpWider_eq_compare {w n : List Byte} (h : n.length ≤ w.length) :
    cmpWider w n = compare (val w) (val n) := by
  have hn := val_lt n
  have hd : (w.drop (w.length - n.length)).length = n.length := by simp; omega
  have hw := val_take_drop w (w.length - n.length)
  rw [hd] at hw
  unfold cmpWider
  split
  · rename_i hany
    have hne : val (w.take (w.length - n.length)) ≠ 0 := by
      intro hz
      rw [val_eq_zero_iff] at hz
      simp only [List.any_eq_true, List.all_eq_true, bne_iff_ne, beq_iff_eq] at hany hz
      obtain ⟨x, hx, hx0⟩ := hany
      exact hx0 (hz x hx)
    symm
    rw [Nat.compare_eq_gt, hw]
    have := Nat.le_mul_of_pos_left (256 ^ n.length) (Nat.pos_of_ne_zero hne)
    omega
  · rename_i hany
    have hz : val (w.take (w.length - n.length)) = 0 := by
      rw [val_eq_zero_iff]
      simpa using hany
    rw [scanBytes_eq_compare hd, hw, hz]
    simp

/-- `cmp(p, q)` is the comparison of the two numbers, at any widths (R46). -/
theorem cmpv_eq_compare (p q : List Byte) : cmpv p q = compare (val p) (val q) := by
  unfold cmpv
  split
  · rename_i h
    exact cmpWider_eq_compare h
  · rename_i h
    rw [cmpWider_eq_compare (by omega), Nat.compare_swap]

theorem cmpv_beq_lt (p q : List Byte) : (cmpv p q == .lt) = decide (val p < val q) := by
  rw [cmpv_eq_compare, Bool.eq_iff_iff]
  simp [Nat.compare_eq_lt]

theorem cmpv_beq_gt (p q : List Byte) : (cmpv p q == .gt) = decide (val q < val p) := by
  rw [cmpv_eq_compare, Bool.eq_iff_iff]
  simp [Nat.compare_eq_gt]

theorem eqWider_iff {w n : List Byte} (h : n.length ≤ w.length) : eqWider w n = true ↔ val w = val n := by
  have hn := val_lt n
  have hd : (w.drop (w.length - n.length)).length = n.length := by simp; omega
  have hw := val_take_drop w (w.length - n.length)
  rw [hd] at hw
  rw [eqWider, Bool.and_eq_true, ← val_eq_zero_iff, beq_iff_eq]
  constructor
  · rintro ⟨hz, he⟩
    rw [hw, hz, he]
    simp
  · intro he
    have hz : val (w.take (w.length - n.length)) = 0 := by
      by_contra hne
      have := Nat.le_mul_of_pos_left (256 ^ n.length) (Nat.pos_of_ne_zero hne)
      omega
    exact ⟨hz, val_inj hd (by rw [hz] at hw; omega)⟩

/-- `eq(p, q)` is the equality of the two numbers, at any widths (R45). -/
theorem eqv_iff (p q : List Byte) : eqv p q = true ↔ val p = val q := by
  unfold eqv
  split
  · rename_i h
    exact eqWider_iff h
  · rename_i h
    rw [eqWider_iff (by omega)]
    exact eq_comm

theorem eqv_eq_decide (p q : List Byte) : eqv p q = decide (val p = val q) := by
  rw [Bool.eq_iff_iff, eqv_iff]
  simp

end Sys2Proof.Machine
end

