-- ==== Sys2Proof/Laws/Decode.lean ====
section
/-! SUPPORT. The fields of an encoded command word (30_encoding.md rules R32 to R34), and the two cases of a
must-be-zero check. -/

namespace Sys2Proof

theorem Reg.code_lt (r : Reg) : r.code < 2 := by cases r <;> decide

theorem Instr.opcode_lt (i : Instr) : i.opcode < 128 := by cases i <;> simp [Instr.opcode]

theorem Instr.imm_lt {i : Instr} (h : i.wellFormed = true) : i.imm < 16777216 := by
  cases i <;> simp only [Instr.wellFormed, decide_eq_true_eq] at h <;> simp only [Instr.imm] <;> omega

/-- A word from its three fields (R32). -/
theorem toNat_encode {i : Instr} (h : i.wellFormed = true) :
    (encode i).toNat = i.self.code * 2 ^ 31 + i.opcode * 2 ^ 24 + i.imm := by
  have h1 := i.self.code_lt
  have h2 := i.opcode_lt
  have h3 := i.imm_lt h
  rw [encode, BitVec.toNat_ofNat, Nat.mod_eq_of_lt (by omega)]

/-- The field `r` of an encoded command names its self. -/
theorem fieldSelf_encode {i : Instr} (h : i.wellFormed = true) : fieldSelf (encode i) = i.self := by
  have h2 := i.opcode_lt
  have h3 := i.imm_lt h
  rw [fieldSelf, cmdBits, toNat_encode h]
  cases i.self
  · rw [if_pos (by simp only [Reg.code]; omega)]
  · rw [if_neg (by simp only [Reg.code]; omega)]

/-- The field `op` of an encoded command is its code. -/
theorem fieldOp_encode {i : Instr} (h : i.wellFormed = true) : fieldOp (encode i) = i.opcode := by
  have h1 := i.self.code_lt
  have h2 := i.opcode_lt
  have h3 := i.imm_lt h
  rw [fieldOp, cmdBits, toNat_encode h]
  omega

/-- The field `imm24` of an encoded command. -/
theorem fieldImm_encode {i : Instr} (h : i.wellFormed = true) : fieldImm (encode i) = i.imm := by
  have h3 := i.imm_lt h
  rw [fieldImm, cmdBits, toNat_encode h]
  omega

/-- The fields of format X are the two parts of `imm24` (R34). -/
theorem fieldIdx_eq (w : Word) : fieldIdx w = fieldImm w / 256 := by
  simp only [fieldIdx, fieldImm, cmdBits]
  omega

theorem lowByte_eq (w : Word) : cmdBits w 7 0 = fieldImm w % 256 := by
  simp only [fieldImm, cmdBits]
  omega

/-- A word is its three fields (R32). -/
theorem toNat_eq_fields (w : Word) : w.toNat = (fieldSelf w).code * 2 ^ 31 + fieldOp w * 2 ^ 24 + fieldImm w := by
  have hw : w.toNat < 2 ^ 32 := w.isLt
  have hs : (fieldSelf w).code = w.toNat / 2 ^ 31 := by
    rw [fieldSelf, cmdBits]
    by_cases h : w.toNat / 2 ^ 31 % 2 ^ (31 + 1 - 31) = 0
    · rw [if_pos h, Reg.code]
      omega
    · rw [if_neg h, Reg.code]
      omega
  rw [hs]
  simp only [fieldOp, fieldImm, cmdBits]
  omega

theorem formatN_ok_iff (w : Word) (i j : Instr) : formatN w i = .ok j ↔ fieldImm w = 0 ∧ i = j := by
  unfold formatN
  split <;> simp [*]

theorem formatX0_ok_iff (w : Word) (i j : Instr) : formatX0 w i = .ok j ↔ cmdBits w 7 0 = 0 ∧ i = j := by
  unfold formatX0
  split <;> simp [*]

end Sys2Proof
end

