-- ==== Sys2Proof/Laws/Shift.lean ====
section
/-! SUPPORT. The barrel shifter in numbers (41_shift.md rules R53 and R54). -/

namespace Sys2Proof.Machine

@[simp] theorem shr_length (v : List Byte) (k : Nat) : (shr v k).length = v.length := by simp [shr]

@[simp] theorem shl_length (v : List Byte) (k : Nat) : (shl v k).length = v.length := by simp [shl]

theorem two_pow_split (k : Nat) : 2 ^ k = 256 ^ (k / 8) * 2 ^ (k % 8) := by
  rw [pow256, ← Nat.pow_add]
  congr 1
  omega

/-- `val(shr_N(v, k)) = val(v) div 2^k`. -/
theorem val_shr (v : List Byte) (k : Nat) : val (shr v k) = val v / 2 ^ k := by
  have hlt : val v / 2 ^ k < 256 ^ v.length := lt_of_le_of_lt (Nat.div_le_self _ _) (val_lt v)
  rw [← Nat.mod_eq_of_lt hlt]
  refine val_build fun i hi => ?_
  have hs : k % 8 < 8 := Nat.mod_lt _ (by norm_num)
  dsimp only
  rw [byteAtInt_eq_lsByte v (j := v.length - 1 - i + k / 8 + 1) (i := (i : Int) - (k / 8 : Nat) - 1) (by omega),
    byteAtInt_eq_lsByte v (j := v.length - 1 - i + k / 8) (i := (i : Int) - (k / 8 : Nat)) (by omega)]
  simp only [lsByte_toNat, BitVec.toNat_ofNat]
  rw [Nat.div_div_eq_div_mul (val v) (2 ^ k), two_pow_split k,
    show 256 ^ (k / 8) * 2 ^ (k % 8) * 256 ^ (v.length - 1 - i)
      = 256 ^ (v.length - 1 - i + k / 8) * 2 ^ (k % 8) by rw [Nat.pow_add]; ring,
    Nat.pow_succ, ← Nat.div_div_eq_div_mul, ← Nat.div_div_eq_div_mul]
  generalize val v / 256 ^ (v.length - 1 - i + k / 8) = u
  generalize k % 8 = s at hs
  interval_cases s <;> omega

/-- One byte of a left shift, counted from the least significant end. -/
theorem shl_digit (V s m q : Nat) (hs : s < 8) (w : Nat)
    (hw : w = (if q ≤ m then V / 256 ^ (m - q) % 256 else 0) * 256
      + (if q + 1 ≤ m then V / 256 ^ (m - q - 1) % 256 else 0)) :
    w * 2 ^ s % 65536 / 256 % 256 = V * (256 ^ q * 2 ^ s) / 256 ^ m % 256 := by
  rcases Nat.lt_trichotomy m q with h | h | h
  · rw [if_neg (by omega), if_neg (by omega)] at hw
    obtain ⟨d, rfl⟩ : ∃ d, q = m + 1 + d := ⟨q - (m + 1), by omega⟩
    have : V * (256 ^ (m + 1 + d) * 2 ^ s) = 256 ^ m * (256 * (V * 256 ^ d * 2 ^ s)) := by
      rw [Nat.pow_add, Nat.pow_succ]
      ring
    rw [this, Nat.mul_div_cancel_left _ (by positivity), Nat.mul_mod_right, hw]
    simp
  · subst h
    rw [if_pos (by omega), if_neg (by omega)] at hw
    rw [show V * (256 ^ m * 2 ^ s) = 256 ^ m * (V * 2 ^ s) by ring, Nat.mul_div_cancel_left _ (by positivity), hw]
    simp only [Nat.sub_self, Nat.pow_zero, Nat.div_one, Nat.add_zero]
    interval_cases s <;> omega
  · rw [if_pos (by omega), if_pos (by omega)] at hw
    obtain ⟨d, rfl⟩ : ∃ d, m = q + 1 + d := ⟨m - (q + 1), by omega⟩
    rw [show q + 1 + d - q = d + 1 by omega, show d + 1 - 1 = d by omega, Nat.pow_succ,
      ← Nat.div_div_eq_div_mul] at hw
    have hV : V = 256 ^ d * (V / 256 ^ d) + V % 256 ^ d := (Nat.div_add_mod _ _).symm
    have hr : V % 256 ^ d < 256 ^ d := Nat.mod_lt _ (by positivity)
    generalize V / 256 ^ d = u at *
    generalize V % 256 ^ d = e at *
    have he : V * 2 ^ s / 256 ^ d = u * 2 ^ s + e * 2 ^ s / 256 ^ d := by
      rw [hV, show (256 ^ d * u + e) * 2 ^ s = e * 2 ^ s + 256 ^ d * (u * 2 ^ s) by ring,
        Nat.add_mul_div_left _ _ (by positivity)]
      ring
    have hsmall : e * 2 ^ s / 256 ^ d < 2 ^ s := by
      rw [Nat.div_lt_iff_lt_mul (by positivity)]
      nlinarith [Nat.two_pow_pos s]
    rw [show V * (256 ^ q * 2 ^ s) = 256 ^ q * (V * 2 ^ s) by ring,
      show (256 : Nat) ^ (q + 1 + d) = 256 ^ q * (256 ^ d * 256) by rw [Nat.pow_add, Nat.pow_succ]; ring,
      Nat.mul_div_mul_left _ _ (by positivity), ← Nat.div_div_eq_div_mul, he, hw]
    generalize e * 2 ^ s / 256 ^ d = x at *
    interval_cases s <;> omega

/-- `val(shl_N(v, k)) = (val(v) * 2^k) mod 2^(8N)`. -/
theorem val_shl (v : List Byte) (k : Nat) : val (shl v k) = val v * 2 ^ k % 256 ^ v.length := by
  refine val_build fun i hi => ?_
  have hs : k % 8 < 8 := Nat.mod_lt _ (by norm_num)
  simp only [BitVec.toNat_ofNat]
  rw [two_pow_split k]
  refine shl_digit _ _ _ (k / 8) hs _ ?_
  congr 2
  · split
    · rw [byteAtInt_eq_lsByte v (j := v.length - 1 - i - k / 8) (by omega), lsByte_toNat]
    · rw [byteAtInt, if_neg (by omega)]
      rfl
  · split
    · rw [byteAtInt_eq_lsByte v (j := v.length - 1 - i - k / 8 - 1) (by omega), lsByte_toNat]
    · rw [byteAtInt, if_neg (by omega)]
      rfl

end Sys2Proof.Machine
end

