-- ==== Sys2Proof/Laws/Multiply.lean ====
section
/-! SUPPORT. The multiplier in numbers, plain and overflow-checked (43_multiply.md rules R67, R69, R70). -/

namespace Sys2Proof.Machine

theorem mod_two_pow_succ (n i : Nat) : n % 2 ^ (i + 1) = n % 2 ^ i + if n.testBit i then 2 ^ i else 0 := by
  rw [Nat.pow_succ, Nat.mod_mul, Nat.testBit_eq_decide_div_mod_eq]
  rcases Nat.mod_two_eq_zero_or_one (n / 2 ^ i) with h | h <;> simp [h]

theorem mulBelow_length (a b : List Byte) (n : Nat) : (mulBelow a b n).length = a.length := by
  induction n with
  | zero => simp [mulBelow]
  | succ n ih =>
    unfold mulBelow
    split <;> simp [ih]

@[simp] theorem mul_length (a b : List Byte) : (mul a b).length = a.length := mulBelow_length a b _

/-- The accumulator holds the product with the low bits of the right operand, wrapped. -/
theorem val_mulBelow (a b : List Byte) (n : Nat) :
    val (mulBelow a b n) = val a * (val b % 2 ^ n) % 256 ^ a.length := by
  induction n with
  | zero => simp [mulBelow, Nat.mod_one]
  | succ n ih =>
    rw [mod_two_pow_succ, ← bit_eq_testBit]
    unfold mulBelow
    split
    · rw [val_add, mulBelow_length, ih, val_shl, ← Nat.add_mod, Nat.mul_add]
    · rw [ih, Nat.add_zero]

/-- `val(mul_N(a, b)) = (val(a) * val(b)) mod 2^(8N)`. -/
theorem val_mul (a b : List Byte) : val (mul a b) = val a * val b % 256 ^ a.length := by
  rw [mul, val_mulBelow, Nat.mod_eq_of_lt (val_lt_two_pow b)]

/-- The walk of the checked multiply, from an exact accumulator on: it reports overflow exactly when the whole product
does not fit, and otherwise ends with the product. -/
theorem mulcFrom_spec (l r : List Byte) (n i : Nat) (acc : List Byte) (hn : n + i = 8 * l.length)
    (hr : val r < 2 ^ (8 * l.length)) (hl : acc.length = l.length) (hacc : val acc = val l * (val r % 2 ^ i)) :
    (256 ^ l.length ≤ val l * val r ∧ (mulcFrom l r n i acc).1 = true) ∨
    (val l * val r < 256 ^ l.length ∧ (mulcFrom l r n i acc).1 = false ∧
      (mulcFrom l r n i acc).2.length = l.length ∧ val (mulcFrom l r n i acc).2 = val l * val r) := by
  induction n generalizing i acc with
  | zero =>
    have hi : val r % 2 ^ i = val r := Nat.mod_eq_of_lt (by rw [show i = 8 * l.length by omega]; exact hr)
    have hlt := val_lt acc
    rw [hi] at hacc
    rw [hl] at hlt
    exact Or.inr ⟨by omega, rfl, hl, hacc⟩
  | succ n ih =>
    have hbit := mod_two_pow_succ (val r) i
    rw [← bit_eq_testBit] at hbit
    unfold mulcFrom
    split
    · rename_i hb
      rw [if_pos hb] at hbit
      have hle : val l * (val r % 2 ^ i) + val l * 2 ^ i ≤ val l * val r := by
        rw [← Nat.mul_add, ← hbit]
        exact Nat.mul_le_mul_left _ (Nat.mod_le _ _)
      split
      · rename_i hrank
        have hbig : 2 ^ (8 * l.length - i) ≤ val l := by
          by_contra hc
          have := (rank_le_iff l (8 * l.length - i)).2 (by omega)
          omega
        refine Or.inl ⟨?_, rfl⟩
        calc 256 ^ l.length = 2 ^ (8 * l.length - i) * 2 ^ i := by
              rw [pow256, ← Nat.pow_add]
              congr 1
              omega
          _ ≤ val l * 2 ^ i := Nat.mul_le_mul_right _ hbig
          _ ≤ val l * val r := by omega
      · rename_i hrank
        have hfit : val l * 2 ^ i < 256 ^ l.length := by
          have hlt : val l < 2 ^ (8 * l.length - i) := (rank_le_iff l _).1 (by omega)
          calc val l * 2 ^ i < 2 ^ (8 * l.length - i) * 2 ^ i :=
                Nat.mul_lt_mul_of_pos_right hlt (by positivity)
            _ = 256 ^ l.length := by
              rw [pow256, ← Nat.pow_add]
              congr 1
              omega
        have hacc_lt := val_lt acc
        have hnew := val_add acc (shl l i)
        rw [val_shl, Nat.mod_eq_of_lt hfit, hl] at hnew
        rw [hl] at hacc_lt
        split
        · rename_i hc
          rw [cmpv_beq_lt, decide_eq_true_eq, hnew] at hc
          refine Or.inl ⟨?_, rfl⟩
          by_contra hlt
          rw [Nat.mod_eq_of_lt (by omega)] at hc
          omega
        · rename_i hc
          rw [cmpv_beq_lt, decide_eq_true_eq, hnew] at hc
          have hno : val acc + val l * 2 ^ i < 256 ^ l.length := by
            by_contra hge
            rw [Nat.mod_eq_sub_mod (by omega), Nat.mod_eq_of_lt (by omega)] at hc
            omega
          refine ih (i + 1) _ (by omega) (by simpa using hl) ?_
          rw [hnew, Nat.mod_eq_of_lt hno, hbit, hacc, Nat.mul_add]
    · rename_i hb
      rw [if_neg hb] at hbit
      exact ih (i + 1) acc (by omega) hl (by rw [hbit, hacc, Nat.add_zero])

/-- The checked multiply reports overflow exactly when the product does not fit (R70(a)). -/
theorem mulc_ovf {l r : List Byte} (h : r.length = l.length) :
    (mulc l r).1 = decide (256 ^ l.length ≤ val l * val r) := by
  have hr : val r < 2 ^ (8 * l.length) := h ▸ val_lt_two_pow r
  rcases mulcFrom_spec l r (8 * l.length) 0 (zero l.length) rfl hr (by simp) (by simp [Nat.mod_one]) with h | h
  · rw [mulc, h.2]
    simp [h.1]
  · rw [mulc, h.2.1]
    simp [h.1]

/-- Where it does not overflow, the checked multiply gives the exact product (R70(b)). -/
theorem mulc_val {l r : List Byte} (h : r.length = l.length) (hfit : val l * val r < 256 ^ l.length) :
    (mulc l r).2.length = l.length ∧ val (mulc l r).2 = val l * val r := by
  have hr : val r < 2 ^ (8 * l.length) := h ▸ val_lt_two_pow r
  rcases mulcFrom_spec l r (8 * l.length) 0 (zero l.length) rfl hr (by simp) (by simp [Nat.mod_one]) with h | h
  · omega
  · exact ⟨h.2.2.1, h.2.2.2⟩

/-- The walk over positions with no bit set changes nothing. -/
theorem mulcFrom_none (l r : List Byte) (n j : Nat) (acc : List Byte) (h : ∀ p, j ≤ p → bit r p = false) :
    mulcFrom l r n j acc = (false, acc) := by
  induction n generalizing j with
  | zero => rfl
  | succ n ih =>
    unfold mulcFrom
    rw [h j le_rfl]
    simp only [Bool.false_eq_true, if_false]
    exact ih (j + 1) fun p hp => h p (by omega)

end Sys2Proof.Machine
end

