-- ==== Sys2Proof/Laws/Divide.lean ====
section
/-! SUPPORT. The restoring divider in numbers (44_divide_modulo.md rules R73, R75, R77). -/

namespace Sys2Proof.Machine

/-- What holds before the last `n` iterations of R73 (the proof of R75): the temporaries have the dividend's width,
the remainder is below the divisor scaled by `2^n`, and dividend = result * divisor + remainder. -/
structure DivInv (a d : List Byte) (n : Nat) (t : DivTemps) : Prop where
  rem_length : t.rem.length = a.length
  res_length : t.res.length = a.length
  mult_length : t.mult.length = a.length
  mult_val : 1 ≤ n → val t.mult = 2 ^ (n - 1)
  rem_lt : val t.rem < val d * 2 ^ n
  sum : val a = val t.res * val d + val t.rem

theorem divStep_inv {a d : List Byte} {n : Nat} {t : DivTemps} (hd : d.length = a.length)
    (h : DivInv a d (n + 1) t) : DivInv a d n (divStep d t) := by
  obtain ⟨hrl, hsl, hml, hmv, hlt, hsum⟩ := h
  have hm : val t.mult = 2 ^ n := hmv (by omega)
  have ha := val_lt a
  have hovf := mulc_ovf (l := d) (r := t.mult) (by omega)
  rw [hm, hd] at hovf
  have hshr : 1 ≤ n → val (shr t.mult 1) = 2 ^ (n - 1) := by
    intro hn
    obtain ⟨m, rfl⟩ : ∃ m, n = m + 1 := ⟨n - 1, by omega⟩
    rw [val_shr, hm, Nat.pow_one, Nat.pow_succ, Nat.mul_div_cancel _ (by norm_num), Nat.add_sub_cancel]
  have hdouble : val d * 2 ^ (n + 1) = val d * 2 ^ n + val d * 2 ^ n := by rw [Nat.pow_succ]; ring
  unfold divStep
  by_cases hfit : val d * 2 ^ n < 256 ^ a.length
  · obtain ⟨hpl, hpv⟩ := mulc_val (l := d) (r := t.mult) (by omega) (by rw [hm, hd]; exact hfit)
    rw [hm] at hpv
    have hno : (mulc d t.mult).1 = false := by rw [hovf]; simpa using hfit
    split
    rename_i ovf p heq
    rw [heq] at hno hpv hpl
    dsimp only at hno hpv hpl
    subst hno
    rw [cmpv_beq_lt, hpv]
    by_cases hge : val t.rem < val d * 2 ^ n
    · simp only [hge, decide_true, Bool.not_true, Bool.and_false, Bool.false_eq_true, if_false]
      exact ⟨hrl, hsl, by simpa using hml, hshr, hge, hsum⟩
    · have hsub : val (sub t.rem p) = val t.rem - val d * 2 ^ n := by rw [val_sub_of_le (by omega), hpv]
      have hd1 : 1 ≤ val d := by
        by_contra h0
        rw [show val d = 0 by omega] at hlt
        omega
      have hexp : (val t.res + 2 ^ n) * val d = val t.res * val d + val d * 2 ^ n := by ring
      have hadd : val (add t.res t.mult) = val t.res + 2 ^ n := by
        rw [val_add_of_lt, hm]
        rw [hm, hsl]
        have := Nat.le_mul_of_pos_right (val t.res + 2 ^ n) hd1
        omega
      simp only [hge, decide_false, Bool.not_false, Bool.and_true, if_true]
      refine ⟨by simpa using hrl, by simpa using hsl, by simpa using hml, hshr, ?_, ?_⟩
      · simp only [hsub]
        omega
      · simp only [hsub, hadd, hexp]
        omega
  · have hyes : (mulc d t.mult).1 = true := by rw [hovf]; simpa using hfit
    split
    rename_i ovf p heq
    rw [heq] at hyes
    dsimp only at hyes
    subst hyes
    simp only [Bool.not_true, Bool.false_and, Bool.false_eq_true, if_false]
    have hrem : val t.rem ≤ val a := by omega
    exact ⟨hrl, hsl, by simpa using hml, hshr, by show val t.rem < _; omega, hsum⟩

theorem divIter_inv {a d : List Byte} (hd : d.length = a.length) (n : Nat) (t : DivTemps) (h : DivInv a d n t) :
    DivInv a d 0 (divIter d n t) := by
  induction n generalizing t with
  | zero => exact h
  | succ n ih => exact ih _ (divStep_inv hd h)

theorem divStart_inv {a d : List Byte} (h1 : 1 ≤ val d) : DivInv a d (8 * a.length) (divStart a) := by
  refine ⟨rfl, by simp [divStart], by simp [divStart], fun hn => ?_, ?_, by simp [divStart]⟩
  · obtain ⟨N, hN⟩ : ∃ N, a.length = N + 1 := ⟨a.length - 1, by omega⟩
    have hz : ∀ m : Nat, (build m fun _ => 0#8) = zero m := fun m => by
      rw [zero_eq_replicate]
      simp [build, List.map_const']
    have hv : val (divStart a).mult = 0x80 * 256 ^ N := by
      simp [divStart, hN, build_succ, val, hz]
    rw [hv, pow256, hN, show (0x80 : Nat) = 2 ^ 7 from rfl, ← Nat.pow_add]
    congr 1
    omega
  · show val a < _
    have := val_lt_two_pow a
    exact lt_of_lt_of_le this (Nat.le_mul_of_pos_left _ h1)

/-- The quotient (R73, R75): none for a zero divisor, otherwise the floor of the exact quotient, at the dividend's
width. -/
theorem divq_eq (a b : List Byte) :
    divq a b = if val b = 0 then none else some (bytesOf a.length (val a / val b)) := by
  have ha := val_lt a
  unfold divq
  rw [cmpv_beq_lt]
  by_cases hlt : val a < val b
  · rw [if_pos (by simpa using hlt), if_neg (by omega), Nat.div_eq_of_lt hlt]
    rfl
  · rw [if_neg (by simpa using hlt)]
    by_cases h0 : val b = 0
    · rw [if_pos ((val_eq_zero_iff b).1 h0), if_pos h0]
    · rw [if_neg (fun h => h0 ((val_eq_zero_iff b).2 h)), if_neg h0]
      have hd : val (align a.length b) = val b := by rw [val_align, Nat.mod_eq_of_lt (by omega)]
      have hinv := divIter_inv (by simp) _ _ (divStart_inv (a := a) (d := align a.length b) (by omega))
      generalize divIter (align a.length b) (8 * a.length) (divStart a) = t at hinv ⊢
      obtain ⟨-, hsl, -, -, hrem, hsum⟩ := hinv
      rw [hd] at hrem hsum
      have hq : val a / val b = val t.res := by
        rw [hsum, Nat.mul_comm, Nat.add_comm, Nat.add_mul_div_left _ _ (by omega), Nat.div_eq_of_lt (by simpa using hrem),
          Nat.zero_add]
      rw [hq, ← hsl, bytesOf_val]

/-- The remainder (R77): none for a zero divisor, otherwise the exact remainder, at the dividend's width. -/
theorem modr_eq (a b : List Byte) :
    modr a b = if val b = 0 then none else some (bytesOf a.length (val a % val b)) := by
  have ha := val_lt a
  unfold modr
  rw [divq_eq]
  by_cases h0 : val b = 0
  · simp [h0]
  · simp only [h0, if_false, Option.some.injEq]
    refine eq_bytesOf_of_val (by simp) ?_
    have hW : 256 ^ a.length ≤ 256 ^ max a.length b.length := Nat.pow_le_pow_right (by norm_num) (le_max_left _ _)
    have hq : val (bytesOf a.length (val a / val b)) = val a / val b := by
      rw [val_bytesOf, Nat.mod_eq_of_lt (lt_of_le_of_lt (Nat.div_le_self _ _) ha)]
    have hmul : val b * (val a / val b) ≤ val a := Nat.mul_div_le _ _
    have hprod : val (mul (align (max a.length b.length) b)
        (align (max a.length b.length) (bytesOf a.length (val a / val b)))) = val b * (val a / val b) := by
      rw [val_mul, align_length, val_align_of_le (le_max_right _ _), val_align_of_le (by simp), hq,
        Nat.mod_eq_of_lt (by omega)]
    have hda : val (align (max a.length b.length) a) = val a := val_align_of_le (le_max_left _ _)
    rw [val_align, val_sub_of_le (by rw [hprod, hda]; exact hmul), hprod, hda]
    congr 1
    have := Nat.div_add_mod (val a) (val b)
    omega

end Sys2Proof.Machine
end

