-- ==== Sys2Proof/Laws/HexCodec.lean ====
section
/-! SUPPORT. The hex codec: digits, characters, positions and lengths (46_hex_codec.md rules R85 to R89). -/

namespace Sys2Proof.Machine

theorem hexval_hexchar {d : Nat} (h : d < 16) : hexval (hexchar d) = some d := by
  interval_cases d <;> rfl

theorem hexval_lt {c : Byte} {d : Nat} (h : hexval c = some d) : d < 16 := by
  unfold hexval at h
  split_ifs at h <;> (injection h; omega)

@[simp] theorem toHex_length (v : List Byte) : (toHex v).length = 2 * v.length := by
  induction v with
  | nil => rfl
  | cons b bs ih =>
    simp only [toHex, List.flatMap_cons, List.length_append, List.length_cons, List.length_nil] at *
    omega

theorem byteAt_toHex (v : List Byte) {i : Nat} (h : i < v.length) :
    byteAt (toHex v) (2 * i) = hexchar ((byteAt v i).toNat / 16) ∧
    byteAt (toHex v) (2 * i + 1) = hexchar ((byteAt v i).toNat % 16) := by
  induction v generalizing i with
  | nil => simp at h
  | cons b bs ih =>
    cases i with
    | zero => simp [toHex, byteAt]
    | succ i =>
      have := ih (i := i) (by simpa using h)
      simpa [toHex, byteAt, Nat.mul_add] using this

/-- Every character of the serialized form is in the alphabet. -/
theorem toHex_alphabet (v : List Byte) : ((toHex v).find? fun c => (hexval c).isNone) = none := by
  rw [List.find?_eq_none]
  intro c hc
  simp only [toHex, List.mem_flatMap, List.mem_cons, List.not_mem_nil, or_false] at hc
  obtain ⟨b, -, rfl | rfl⟩ := hc
  · have hb : b.toNat < 256 := b.isLt
    simp [hexval_hexchar (show b.toNat / 16 < 16 by omega)]
  · simp [hexval_hexchar (show b.toNat % 16 < 16 by omega)]

/-- The parse, case by case: a wrong length, a first bad character, or the value of the digit pairs. -/
theorem parseHex_cases (N : Nat) (din : List Byte) :
    (din.length ≠ 2 * N ∧ parseHex N din = .error (.parseLength din.length)) ∨
    (din.length = 2 * N ∧ ∃ c, (din.find? fun c => (hexval c).isNone) = some c ∧
      parseHex N din = .error (.parseCharacter c)) ∨
    (din.length = 2 * N ∧ (din.find? fun c => (hexval c).isNone) = none ∧
      parseHex N din = .ok (build N fun i => BitVec.ofNat 8 (digitAt din (2 * i) * 16 + digitAt din (2 * i + 1)))) := by
  unfold parseHex
  by_cases h : din.length = 2 * N
  · rw [if_neg (by simpa using h)]
    cases hf : din.find? fun c => (hexval c).isNone with
    | some c => exact Or.inr (Or.inl ⟨h, c, rfl, rfl⟩)
    | none => exact Or.inr (Or.inr ⟨h, rfl, rfl⟩)
  · rw [if_pos h]
    exact Or.inl ⟨h, rfl⟩

theorem parseHex_ok_length {N : Nat} {din v : List Byte} (h : parseHex N din = .ok v) : v.length = N := by
  rcases parseHex_cases N din with ⟨-, e⟩ | ⟨-, c, -, e⟩ | ⟨-, -, e⟩ <;> rw [e] at h <;> injection h
  rename_i h
  simp [← h]

theorem digitAt_lt (din : List Byte) (j : Nat) : digitAt din j < 16 := by
  unfold digitAt
  cases h : hexval (byteAt din j) with
  | none => simp
  | some d => simpa using hexval_lt h

end Sys2Proof.Machine
end

