-- ==== Sys2Proof/Laws/State.lean ====
section
/-! SUPPORT. One lemma per field per update of the state: a register written, a byte written, a response given, a command
taken from the port. -/

namespace Sys2Proof

@[simp] theorem Reg.other_other (r : Reg) : r.other.other = r := by cases r <;> rfl

@[simp] theorem Reg.other_ne (r : Reg) : r.other ≠ r := by cases r <;> simp [Reg.other]

@[simp] theorem Reg.ne_other (r : Reg) : r ≠ r.other := by cases r <;> simp [Reg.other]

namespace Machine

variable (s : State) (r : Reg) (v : List Byte) (a : Response)

/-! ## A whole register written -/

@[simp] theorem State.setReg_reg_self : (s.setReg r v).reg r = v := by cases r <;> rfl

@[simp] theorem State.setReg_reg_other : (s.setReg r v).reg r.other = s.reg r.other := by cases r <;> rfl

@[simp] theorem State.setReg_otherReg : (s.setReg r v).otherReg r = s.otherReg r := by cases r <;> rfl

@[simp] theorem State.setReg_port : (s.setReg r v).port = s.port := by cases r <;> rfl

@[simp] theorem State.setReg_din : (s.setReg r v).din = s.din := by cases r <;> rfl

@[simp] theorem State.setReg_resp : (s.setReg r v).resp = s.resp := by cases r <;> rfl

theorem State.setReg_reg_of_ne {q : Reg} (h : q ≠ r) : (s.setReg r v).reg q = s.reg q := by
  cases r <;> cases q <;> first | rfl | exact absurd rfl h

@[simp] theorem State.reg_A : s.reg .A = s.A := rfl

@[simp] theorem State.reg_B : s.reg .B = s.B := rfl

@[simp] theorem State.setReg_reg : s.setReg r (s.reg r) = s := by cases r <;> rfl

theorem State.width_eq : s.width r = (s.reg r).length := rfl

theorem State.otherReg_eq : s.otherReg r = s.reg r.other := rfl

theorem State.setReg_lengths (h : v.length = s.width r) :
    (s.setReg r v).A.length = s.A.length ∧ (s.setReg r v).B.length = s.B.length := by
  cases r
  · exact ⟨h, rfl⟩
  · exact ⟨rfl, h⟩

/-! ## A response given -/

@[simp] theorem State.answer_A : (s.answer a).A = s.A := rfl

@[simp] theorem State.answer_B : (s.answer a).B = s.B := rfl

@[simp] theorem State.answer_port : (s.answer a).port = s.port := rfl

@[simp] theorem State.answer_din : (s.answer a).din = s.din := rfl

@[simp] theorem State.answer_resp : (s.answer a).resp = some a := rfl

@[simp] theorem State.answer_reg (q : Reg) : (s.answer a).reg q = s.reg q := by cases q <;> rfl

@[simp] theorem State.answer_otherReg (q : Reg) : (s.answer a).otherReg q = s.otherReg q := by cases q <;> rfl

@[simp] theorem State.answer_width (q : Reg) : (s.answer a).width q = s.width q := by cases q <;> rfl

/-! ## One byte written -/

@[simp] theorem memWrite_width (q : Reg) (i : Nat) (b : Byte) : (memWrite s r i b).width q = s.width q := by
  cases r <;> cases q <;> simp [memWrite, State.width, State.reg, State.setReg]

@[simp] theorem memWrite_reg_other (i : Nat) (b : Byte) : (memWrite s r i b).reg r.other = s.reg r.other := by
  simp [memWrite]

@[simp] theorem memWrite_port (i : Nat) (b : Byte) : (memWrite s r i b).port = s.port := by simp [memWrite]

@[simp] theorem memWrite_din (i : Nat) (b : Byte) : (memWrite s r i b).din = s.din := by simp [memWrite]

@[simp] theorem memWrite_resp (i : Nat) (b : Byte) : (memWrite s r i b).resp = s.resp := by simp [memWrite]

@[simp] theorem memRead_answer (q : Reg) (i : Nat) : memRead (s.answer a) q i = memRead s q i := by simp [memRead]

/-- The byte written is the byte read back. -/
theorem memRead_memWrite_same {i : Nat} (h : i < s.width r) (b : Byte) : memRead (memWrite s r i b) r i = b := by
  have h' : i < (s.reg r).length := h
  simp [memRead, memWrite, byteAt, h']

/-- Every other byte, of either register, reads as before. -/
theorem memRead_memWrite_other {q : Reg} {i j : Nat} (b : Byte) (h : q ≠ r ∨ j ≠ i) :
    memRead (memWrite s r i b) q j = memRead s q j := by
  by_cases hq : q = r
  · subst hq
    have hj : i ≠ j := fun e => (h.resolve_left (by simp)) e.symm
    simp [memRead, memWrite, byteAt, List.getD_eq_getElem?_getD, List.getElem?_set_ne hj]
  · rw [memRead, memWrite, State.setReg_reg_of_ne _ _ _ hq, memRead]

/-! ## The ends of a command, and the port -/

theorem respond_eq (f : Bool) (n : BitVec 24) (d : List Byte) :
    respond s f n d = .next (s.answer (okResponse f n d)) := rfl

theorem raise_eq (e : CmdError) : raise s e = .next (s.answer e.response) := rfl

theorem CmdError.response_status (e : CmdError) : e.response.status ≠ .ok := by cases e <;> simp [response]

theorem CmdError.response_dout (e : CmdError) : e.response.dout = [] := by cases e <;> rfl

@[simp] theorem okResponse_status (f : Bool) (n : BitVec 24) (d : List Byte) : (okResponse f n d).status = .ok := rfl

@[simp] theorem okResponse_flag (f : Bool) (n : BitVec 24) (d : List Byte) : (okResponse f n d).flag = f := rfl

@[simp] theorem okResponse_val (f : Bool) (n : BitVec 24) (d : List Byte) : (okResponse f n d).val = n := rfl

@[simp] theorem okResponse_dout (f : Bool) (n : BitVec 24) (d : List Byte) : (okResponse f n d).dout = d := rfl

theorem takeCommand_nil (h : s.port = []) : s.takeCommand = none := by simp [State.takeCommand, h]

theorem takeCommand_cons {c : Command} {cs : List Command} (h : s.port = c :: cs) :
    s.takeCommand = some (c.word, { s with port := cs, din := c.din }) := by simp [State.takeCommand, h]

/-- With no command on the port a step changes nothing. -/
theorem step_idle (h : s.port = []) : step s = .next s := by simp [step, takeCommand_nil s h]

/-- A step on a word the decoder accepts is the meaning of the instruction, in the state the command was taken in. -/
theorem step_of_decode {c : Command} {cs : List Command} {i : Instr} (h : s.port = c :: cs)
    (hd : decode c.word = .ok i) : step s = exec i { s with port := cs, din := c.din } := by
  simp [step, takeCommand_cons s h, hd]

/-- A step on a word the decoder refuses answers IllegalCommand. -/
theorem step_of_illegal {c : Command} {cs : List Command} {e : Illegal} (h : s.port = c :: cs)
    (hd : decode c.word = .error e) :
    step s = .next (({ s with port := cs, din := c.din } : State).answer CmdError.illegalCommand.response) := by
  simp [step, takeCommand_cons s h, hd, raise]

@[simp] theorem withNextWord_A (w : Word) : (s.withNextWord w).A = s.A := rfl

@[simp] theorem withNextWord_B (w : Word) : (s.withNextWord w).B = s.B := rfl

@[simp] theorem withNextWord_resp (w : Word) : (s.withNextWord w).resp = s.resp := rfl

/-! ## The form of the byte spaces -/

/-- A byte written keeps the form of both byte spaces. -/
theorem memWrite_wf (q : Reg) (i : Nat) (b : Byte) :
    Memory.wf ((memWrite s r i b).reg q) = Memory.wf (s.reg q) := Memory.wf_of_length (memWrite_width s r q i b)

/-- A whole register written, at its width, keeps the form of both byte spaces. -/
theorem setReg_wf (q : Reg) (h : v.length = s.width r) :
    Memory.wf ((s.setReg r v).reg q) = Memory.wf (s.reg q) := by
  obtain ⟨hA, hB⟩ := State.setReg_lengths s r v h
  cases q
  · exact Memory.wf_of_length hA
  · exact Memory.wf_of_length hB

end Machine

end Sys2Proof
end

