-- ==== Sys2Proof/Laws/Exec.lean ====
section
/-! SUPPORT. What any command can do, said once: it answers a next state, in which it either answered an error and
wrote nothing, or wrote self alone, at its width, and answered OK. -/

namespace Sys2Proof.Machine

/-- The two ways a command can end. -/
inductive Ends (r : Reg) (s : State) : State → Prop where
  /-- An error (R99). -/
  | raised (e : CmdError) : Ends r s (s.answer e.response)
  /-- A success; a command that writes nothing has written the old content. -/
  | responded (v : List Byte) (hv : v.length = s.width r) (f : Bool) (n : BitVec 24) (d : List Byte) :
      Ends r s ((s.setReg r v).answer (okResponse f n d))

theorem bitwise_cases (op : Byte → Byte → Byte) (r : Reg) (s : State) :
    (s.A.length ≠ s.B.length ∧ bitwise op r s = .next (s.answer CmdError.illegalCommand.response)) ∨
    (s.A.length = s.B.length ∧ bitwise op r s = .next ((s.setReg r
      (build (s.width r) fun i => op (byteAt (s.reg r) i) (byteAt (s.otherReg r) i))).answer okResponse)) := by
  unfold bitwise
  by_cases h : s.A.length = s.B.length
  · rw [if_neg (by simpa using h)]
    exact Or.inr ⟨h, rfl⟩
  · rw [if_pos h]
    exact Or.inl ⟨h, rfl⟩

/-- DIV, case by case. -/
theorem execDiv_eq (r : Reg) (s : State) :
    execDiv r s = .next (if val (s.otherReg r) = 0 then s.answer CmdError.divideByZero.response
      else (s.setReg r (bytesOf (s.width r) (val (s.reg r) / val (s.otherReg r)))).answer okResponse) := by
  unfold execDiv
  rw [divq_eq]
  by_cases h : val (s.otherReg r) = 0
  · simp [h, raise]
  · simp [h, respond, State.width]

/-- MOD, case by case. -/
theorem execMod_eq (r : Reg) (s : State) :
    execMod r s = .next (if val (s.otherReg r) = 0 then s.answer CmdError.divideByZero.response
      else (s.setReg r (bytesOf (s.width r) (val (s.reg r) % val (s.otherReg r)))).answer okResponse) := by
  unfold execMod
  rw [modr_eq]
  by_cases h : val (s.otherReg r) = 0
  · simp [h, raise]
  · simp [h, respond, State.width]

/-- HEXIN, case by case. -/
theorem execHexin_cases (r : Reg) (s : State) :
    (∃ e, parseHex (s.width r) s.din = .error e ∧ execHexin r s = .next (s.answer e.response)) ∨
    (∃ v, parseHex (s.width r) s.din = .ok v ∧ execHexin r s = .next ((s.setReg r v).answer okResponse)) := by
  unfold execHexin
  cases h : parseHex (s.width r) s.din with
  | error e => exact Or.inl ⟨e, rfl, rfl⟩
  | ok v => exact Or.inr ⟨v, rfl, rfl⟩

/-- What a command answers and what self holds after it, as a function of what it may read: the contents `x` of self
and `y` of other, and the characters. A command that writes nothing has self as it was. -/
inductive Result where
  | error (e : CmdError)
  | ok (v : List Byte) (flag : Bool) (n : BitVec 24) (dout : List Byte)

/-- The result of each command (support: `exec_eq_result` says that it is the meaning). -/
def resultOf (i : Instr) (x y din : List Byte) : Result :=
  match i with
  | .mov _ => .ok (align x.length y) false 0 []
  | .cmpeq _ => .ok x (eqv x y) 0 []
  | .cmplt _ => .ok x (cmpv x y == .lt) 0 []
  | .cmpgt _ => .ok x (cmpv x y == .gt) 0 []
  | .cmple _ => .ok x (!(cmpv x y == .gt)) 0 []
  | .cmpge _ => .ok x (!(cmpv x y == .lt)) 0 []
  | .shr _ k => .ok (shr x k) false 0 []
  | .shl _ k => .ok (shl x k) false 0 []
  | .add _ => .ok (add x y) false 0 []
  | .sub _ => .ok (sub x y) false 0 []
  | .mul _ => .ok (mul x y) false 0 []
  | .div _ => if val y = 0 then .error .divideByZero else .ok (bytesOf x.length (val x / val y)) false 0 []
  | .mod _ => if val y = 0 then .error .divideByZero else .ok (bytesOf x.length (val x % val y)) false 0 []
  | .and _ => if x.length ≠ y.length then .error .illegalCommand
      else .ok (build x.length fun i => byteAt x i &&& byteAt y i) false 0 []
  | .or _ => if x.length ≠ y.length then .error .illegalCommand
      else .ok (build x.length fun i => byteAt x i ||| byteAt y i) false 0 []
  | .xor _ => if x.length ≠ y.length then .error .illegalCommand
      else .ok (build x.length fun i => byteAt x i ^^^ byteAt y i) false 0 []
  | .not _ => .ok (notv x) false 0 []
  | .hexin _ => match parseHex x.length din with
    | .error e => .error e
    | .ok v => .ok v false 0 []
  | .hexout _ => .ok x false 0 (toHex x)
  | .hexoutx _ => .ok x false 0 ([0x30, 0x78] ++ toHex x)
  | .getbit _ pos => if pos ≥ 8 * x.length then .error (.range pos) else .ok x (bit x pos) 0 []
  | .rank _ => .ok x false (BitVec.ofNat 24 (rank x)) []
  | .clr _ => .ok (zero x.length) false 0 []
  | .rdb _ idx => if idx ≥ x.length then .error (.range idx) else .ok x false (BitVec.ofNat 24 (byteAt x idx).toNat) []
  | .wrb _ idx v8 => if idx ≥ x.length then .error (.range idx) else .ok (x.set idx v8) false 0 []
  | .dump _ => .ok x false 0 x
  | .bits _ => .ok x false 0
      (build (8 * x.length) fun j => if bit x (8 * x.length - 1 - j) then 0x01 else 0x00)

/-- The state in which a command with that result ends. -/
def State.finish (s : State) (r : Reg) : Result → State
  | .error e => s.answer e.response
  | .ok v f n d => (s.setReg r v).answer (okResponse f n d)

theorem State.finish_reported (s : State) (r : Reg) (f : Bool) (n : BitVec 24) (d : List Byte) :
    s.finish r (.ok (s.reg r) f n d) = s.answer (okResponse f n d) := by simp [State.finish]

/-- The registers and the response after a command depend on the registers before it and on its result only. -/
theorem State.finish_congr {s t : State} (hA : s.A = t.A) (hB : s.B = t.B) (r : Reg) (x : Result) :
    (s.finish r x).A = (t.finish r x).A ∧ (s.finish r x).B = (t.finish r x).B ∧
      (s.finish r x).resp = (t.finish r x).resp := by
  cases x <;> cases r <;> simp [State.finish, State.setReg, hA, hB]

theorem bitwise_eq (op : Byte → Byte → Byte) (r : Reg) (s : State) :
    bitwise op r s = .next (s.finish r
      (if (s.reg r).length ≠ (s.otherReg r).length then .error .illegalCommand
        else .ok (build (s.reg r).length fun i => op (byteAt (s.reg r) i) (byteAt (s.otherReg r) i)) false 0 [])) := by
  have hiff : (s.reg r).length = (s.otherReg r).length ↔ s.A.length = s.B.length := by
    cases r
    · exact Iff.rfl
    · exact eq_comm
  rcases bitwise_cases op r s with ⟨h, e⟩ | ⟨h, e⟩
  · rw [e, if_pos (fun hc => h (hiff.1 hc))]
    rfl
  · rw [e, if_neg (fun hc => hc (hiff.2 h))]
    rfl

/-- The meaning of every command is its result: it answers a next state, and it depends on self, other and the
characters only. -/
theorem exec_eq_result (i : Instr) (s : State) :
    exec i s = .next (s.finish i.self (resultOf i (s.reg i.self) (s.otherReg i.self) s.din)) := by
  cases i with
  | mov r => rfl
  | shr r k => rfl
  | shl r k => rfl
  | add r => rfl
  | sub r => rfl
  | mul r => rfl
  | not r => rfl
  | clr r => rfl
  | cmpeq r | cmplt r | cmpgt r | cmple r | cmpge r | hexout r | hexoutx r | rank r | dump r | bits r =>
    rw [resultOf, Instr.self, State.finish_reported]
    rfl
  | div r =>
    refine (execDiv_eq r s).trans ?_
    rw [resultOf, Instr.self]
    split <;> rfl
  | mod r =>
    refine (execMod_eq r s).trans ?_
    rw [resultOf, Instr.self]
    split <;> rfl
  | and r => exact bitwise_eq _ r s
  | or r => exact bitwise_eq _ r s
  | xor r => exact bitwise_eq _ r s
  | hexin r =>
    show execHexin r s = _
    unfold execHexin
    rw [resultOf, Instr.self, State.width]
    cases parseHex (s.reg r).length s.din <;> rfl
  | getbit r pos =>
    show execGetbit r pos s = _
    unfold execGetbit
    rw [resultOf, Instr.self, State.width]
    split
    · rfl
    · rw [State.finish_reported]
      rfl
  | rdb r idx =>
    show execRdb r idx s = _
    unfold execRdb
    rw [resultOf, Instr.self, State.width]
    split
    · rfl
    · rw [State.finish_reported]
      rfl
  | wrb r idx v8 =>
    show execWrb r idx v8 s = _
    unfold execWrb
    rw [resultOf, Instr.self, State.width]
    split <;> rfl

/-- A success keeps the width of self. -/
theorem resultOf_length {i : Instr} {x y din v : List Byte} {f : Bool} {n : BitVec 24} {d : List Byte}
    (h : resultOf i x y din = .ok v f n d) : v.length = x.length := by
  cases i with
  | hexin r =>
    simp only [resultOf] at h
    split at h
    · cases h
    · rename_i hp
      injection h with h
      exact h ▸ parseHex_ok_length hp
  | div r | mod r | and r | or r | xor r | getbit r pos | rdb r idx | wrb r idx v8 =>
    simp only [resultOf] at h
    split at h <;> cases h
    simp
  | mov r | cmpeq r | cmplt r | cmpgt r | cmple r | cmpge r | shr r k | shl r k | add r | sub r | mul r | not r
  | hexout r | hexoutx r | rank r | clr r | dump r | bits r =>
    simp only [resultOf] at h
    cases h
    simp

/-- A command that does not read other has one result whatever other holds (R18). -/
theorem resultOf_other {i : Instr} (h : i.readsOther = false) (x y y' din : List Byte) :
    resultOf i x y din = resultOf i x y' din := by
  cases i <;> first | rfl | simp [Instr.readsOther] at h

/-- Only HEXIN reads the characters (R40). -/
theorem resultOf_din {i : Instr} (h : ∀ r, i ≠ .hexin r) (x y din din' : List Byte) :
    resultOf i x y din = resultOf i x y din' := by
  cases i <;> first | rfl | exact absurd rfl (h _)

/-- Every command ends in one of the two ways. -/
theorem exec_ends (i : Instr) (s : State) : ∃ t, exec i s = .next t ∧ Ends i.self s t := by
  refine ⟨_, exec_eq_result i s, ?_⟩
  cases h : resultOf i (s.reg i.self) (s.otherReg i.self) s.din with
  | error e => exact .raised e
  | ok v f n d => exact .responded v (resultOf_length h) f n d

theorem Ends.port {r : Reg} {s t : State} (h : Ends r s t) : t.port = s.port := by cases h <;> simp

theorem Ends.din {r : Reg} {s t : State} (h : Ends r s t) : t.din = s.din := by cases h <;> simp

theorem Ends.keepsOther {r : Reg} {s t : State} (h : Ends r s t) : t.otherReg r = s.otherReg r := by
  cases h <;> simp

theorem Ends.sameWidths {r : Reg} {s t : State} (h : Ends r s t) : SameWidths s t := by
  cases h with
  | raised e => exact ⟨rfl, rfl⟩
  | responded v hv f n d => exact State.setReg_lengths s r v hv

/-- Every step answers a next state: the idle one changes nothing, a refused word is answered with IllegalCommand, and
a decoded command ends in one of its two ways. -/
theorem step_ends (s : State) : ∃ t, step s = .next t ∧
    ((s.port = [] ∧ t = s) ∨
     ∃ c cs, s.port = c :: cs ∧ ∃ r, Ends r { s with port := cs, din := c.din } t) := by
  cases hp : s.port with
  | nil => exact ⟨s, step_idle s hp, Or.inl ⟨rfl, rfl⟩⟩
  | cons c cs =>
    cases hd : decode c.word with
    | error e => exact ⟨_, step_of_illegal s hp hd, Or.inr ⟨c, cs, rfl, .A, .raised _⟩⟩
    | ok i =>
      obtain ⟨t, ht, he⟩ := exec_ends i { s with port := cs, din := c.din }
      exact ⟨t, (step_of_decode s hp hd).trans ht, Or.inr ⟨c, cs, rfl, i.self, he⟩⟩

/-- A command that ends with a register written at its width has the frame `WritesOnly`. -/
theorem writesOnly_setReg {s : State} {r : Reg} {v : List Byte} (h : v.length = s.width r) :
    WritesOnly r s ((s.setReg r v).answer okResponse) :=
  ⟨by simp [State.width, h], by simp, rfl, by simp, by simp⟩

/-- A command that ends with its response only has the frame `ReportsOnly`. -/
theorem reportsOnly_answer (s : State) (a : Response) : ReportsOnly s (s.answer a) a := ⟨rfl, rfl, rfl, rfl, rfl⟩

end Sys2Proof.Machine
end

