-- ==== Sys2Proof/Laws/PerInstr.lean ====
section
/-! SUPPORT. The per-instruction family EncodedFields: the encoded word of every well-formed instruction carries the
instruction's self, code and immediate in the fields of rule R32. -/

namespace Sys2Proof.Laws.EncodedFields

/-- The three fields of the encoded word are those of the instruction. -/
def Statement (i : Instr) : Prop :=
  i.wellFormed = true →
    fieldSelf (encode i) = i.self ∧ fieldOp (encode i) = i.opcode ∧ fieldImm (encode i) = i.imm

theorem of_wellFormed (i : Instr) : Statement i := fun h =>
  And.intro (fieldSelf_encode h) (And.intro (fieldOp_encode h) (fieldImm_encode h))

theorem mov (r : Reg) : Statement (.mov r) := of_wellFormed _

theorem cmpeq (r : Reg) : Statement (.cmpeq r) := of_wellFormed _

theorem cmplt (r : Reg) : Statement (.cmplt r) := of_wellFormed _

theorem cmpgt (r : Reg) : Statement (.cmpgt r) := of_wellFormed _

theorem cmple (r : Reg) : Statement (.cmple r) := of_wellFormed _

theorem cmpge (r : Reg) : Statement (.cmpge r) := of_wellFormed _

theorem shr (r : Reg) (k : Nat) : Statement (.shr r k) := of_wellFormed _

theorem shl (r : Reg) (k : Nat) : Statement (.shl r k) := of_wellFormed _

theorem add (r : Reg) : Statement (.add r) := of_wellFormed _

theorem sub (r : Reg) : Statement (.sub r) := of_wellFormed _

theorem mul (r : Reg) : Statement (.mul r) := of_wellFormed _

theorem div (r : Reg) : Statement (.div r) := of_wellFormed _

theorem mod (r : Reg) : Statement (.mod r) := of_wellFormed _

theorem and (r : Reg) : Statement (.and r) := of_wellFormed _

theorem or (r : Reg) : Statement (.or r) := of_wellFormed _

theorem xor (r : Reg) : Statement (.xor r) := of_wellFormed _

theorem not (r : Reg) : Statement (.not r) := of_wellFormed _

theorem hexin (r : Reg) : Statement (.hexin r) := of_wellFormed _

theorem hexout (r : Reg) : Statement (.hexout r) := of_wellFormed _

theorem hexoutx (r : Reg) : Statement (.hexoutx r) := of_wellFormed _

theorem getbit (r : Reg) (pos : Nat) : Statement (.getbit r pos) := of_wellFormed _

theorem rank (r : Reg) : Statement (.rank r) := of_wellFormed _

theorem clr (r : Reg) : Statement (.clr r) := of_wellFormed _

theorem rdb (r : Reg) (idx : Nat) : Statement (.rdb r idx) := of_wellFormed _

theorem wrb (r : Reg) (idx : Nat) (v8 : Byte) : Statement (.wrb r idx v8) := of_wellFormed _

theorem dump (r : Reg) : Statement (.dump r) := of_wellFormed _

theorem bits (r : Reg) : Statement (.bits r) := of_wellFormed _

end Sys2Proof.Laws.EncodedFields
end

