-- ==== Sys2Proof/Laws/Words.lean ====
section
/-! SUPPORT. The fields of the command word that rule R37 writes down for an operation (30_encoding.md). -/

namespace Sys2Proof.Machine

theorem toNat_commandWord {op imm : Nat} (r : Reg) (ho : op < 128) (hi : imm < 16777216) :
    (commandWord op r imm).toNat = op * 0x1000000 + imm + r.code * 0x80000000 := by
  cases r <;> simp only [commandWord, Reg.code, BitVec.toNat_ofNat] <;> omega

theorem fieldSelf_commandWord {op imm : Nat} (r : Reg) (ho : op < 128) (hi : imm < 16777216) :
    fieldSelf (commandWord op r imm) = r := by
  rw [fieldSelf, cmdBits, toNat_commandWord r ho hi]
  cases r
  · rw [if_pos (by simp only [Reg.code]; omega)]
  · rw [if_neg (by simp only [Reg.code]; omega)]

theorem fieldOp_commandWord {op imm : Nat} (r : Reg) (ho : op < 128) (hi : imm < 16777216) :
    fieldOp (commandWord op r imm) = op := by
  have := r.code_lt
  rw [fieldOp, cmdBits, toNat_commandWord r ho hi]
  omega

theorem fieldImm_commandWord {op imm : Nat} (r : Reg) (ho : op < 128) (hi : imm < 16777216) :
    fieldImm (commandWord op r imm) = imm := by
  rw [fieldImm, cmdBits, toNat_commandWord r ho hi]
  omega

/-- A word is decoded by its three fields. -/
theorem decode_commandWord {op imm : Nat} {r : Reg} {i : Instr} (ho : op < 128) (hi : imm < 16777216)
    (h : ∀ w, fieldSelf w = r → fieldOp w = op → fieldImm w = imm → decode w = .ok i) :
    decode (commandWord op r imm) = .ok i :=
  h _ (fieldSelf_commandWord r ho hi) (fieldOp_commandWord r ho hi) (fieldImm_commandWord r ho hi)

end Sys2Proof.Machine
end

