-- ==== Sys2Proof/Tests/Slice0.lean ====
section
/-! SUPPORT. The model's own tests: ill-formed terms refused, words decoded, one command each on small states, and
a witness for every statement that has hypotheses. Expected results are the spec's (95_test_vectors.md, the examples of
the rules of files 40 to 47), named at each test; a word is written out from the opcode map of 30_encoding.md rule R37. -/

namespace Sys2Proof.Tests

open Machine

/-- A small state: two registers, nothing on the port. -/
def st (A B : List Byte) (din : List Byte := []) : State := { A := A, B := B, port := [], din := din, resp := none }

/-- A row of the tables of 95_test_vectors.md: the response of a command, then A and B after it. -/
structure Row where
  status : Nat
  flag : Bool
  val : Nat
  dout : List Byte
  A : List Byte
  B : List Byte
  deriving DecidableEq, Repr

/-- What a host sees of one command issued in a state with these two registers. -/
def issue (A B : List Byte) (w : Word) (din : List Byte := []) : Option Row :=
  match step { A := A, B := B, port := [{ word := w, din := din }], din := [], resp := none } with
  | .next t => t.resp.map fun a => ⟨a.status.code.toNat, a.flag, a.val.toNat, a.dout, t.A, t.B⟩
  | .fault _ => none
  | .refused _ => none

/-! ## Ill-formed terms are refused -/

theorem test_wellformed_count : (Instr.shr .A 16777216).wellFormed = false ∧ (Instr.shl .B 16777216).wellFormed = false ∧
    (Instr.getbit .A 16777216).wellFormed = false ∧ (Instr.shr .A 16777215).wellFormed = true := by decide

theorem test_wellformed_index : (Instr.rdb .A 65536).wellFormed = false ∧ (Instr.wrb .B 65536 0).wellFormed = false ∧
    (Instr.rdb .A 65535).wellFormed = true := by decide

theorem test_existsin_widths : (Instr.and .A).existsIn 2 3 = false ∧ (Instr.or .B).existsIn 2 3 = false ∧
    (Instr.xor .A).existsIn 2 3 = false ∧ (Instr.xor .A).existsIn 2 2 = true ∧ (Instr.not .A).existsIn 2 3 = true := by
  decide

theorem test_state_wf_widths : (st [] [0]).wf = false ∧ (st [0] []).wf = false ∧ (st [0] [0]).wf = true := by decide

/-! ## Decoding: the words of the opcode map, self A and self B -/

theorem test_decode_align_compare :
    decode 0b00000001000000000000000000000000 = .ok (.mov .A) ∧ decode 0x81000000 = .ok (.mov .B) ∧
    decode 0x02000000 = .ok (.cmpeq .A) ∧ decode 0x83000000 = .ok (.cmplt .B) ∧ decode 0x04000000 = .ok (.cmpgt .A) ∧
    decode 0x05000000 = .ok (.cmple .A) ∧ decode 0x86000000 = .ok (.cmpge .B) := by decide

theorem test_decode_shift :
    decode 0b10001000000000000000000000001001 = .ok (.shr .B 9) ∧ decode 0x0900000C = .ok (.shl .A 12) ∧
    decode 0x09FFFFFF = .ok (.shl .A 16777215) := by decide

theorem test_decode_arithmetic :
    decode 0b10010000000000000000000000000000 = .ok (.add .B) ∧ decode 0x11000000 = .ok (.sub .A) ∧
    decode 0b00011000000000000000000000000000 = .ok (.mul .A) ∧ decode 0xA0000000 = .ok (.div .B) ∧
    decode 0b10100001000000000000000000000000 = .ok (.mod .B) := by decide

theorem test_decode_bitwise :
    decode 0b00101000000000000000000000000000 = .ok (.and .A) ∧ decode 0xA9000000 = .ok (.or .B) ∧
    decode 0x2A000000 = .ok (.xor .A) ∧ decode 0xAB000000 = .ok (.not .B) := by decide

theorem test_decode_hex :
    decode 0b10110000000000000000000000000000 = .ok (.hexin .B) ∧ decode 0x31000000 = .ok (.hexout .A) ∧
    decode 0x32000000 = .ok (.hexoutx .A) := by decide

theorem test_decode_access :
    decode 0b00111000000000000000000000011111 = .ok (.getbit .A 31) ∧ decode 0x39000000 = .ok (.rank .A) ∧
    decode 0xC0000000 = .ok (.clr .B) ∧ decode 0x41000300 = .ok (.rdb .A 3) ∧
    decode 0b11000010000000000000001010101011 = .ok (.wrb .B 2 0xab) ∧ decode 0xC3000000 = .ok (.dump .B) ∧
    decode 0x44000000 = .ok (.bits .A) := by decide

/-- 30_encoding.md rule R38: one word of each case the word alone decides, and the two named ones. -/
theorem test_decode_illegal :
    decode 0x07000000 = .error .unassignedOpcode ∧ decode 0x45000000 = .error .unassignedOpcode ∧
    decode 0x10000001 = .error .nonzeroImmediate ∧ decode 0x41000101 = .error .nonzeroByteField ∧
    decode 0x00000000 = .error .unassignedOpcode ∧ decode 0xFFFFFFFF = .error .unassignedOpcode := by decide

/-- The worked encodings of 30_encoding.md rule R41, by the encoder. -/
theorem test_encode : encode (.add .B) = 0x90000000 ∧ encode (.shl .A 12) = 0x0900000C ∧
    encode (.getbit .A 31) = 0x3800001F ∧ encode (.rdb .A 3) = 0x41000300 ∧ encode (.wrb .B 2 0xab) = 0xC20002AB := by
  decide

theorem test_decode_table_word : decodeTableWord 32 0x41000300 = some (.rdb .A 3) ∧ decodeTableWord 32 0 = none := by
  decide

/-- The host's placing of a word runs it as the first command after reset: NOT.A on the zero register. -/
theorem test_fetch_word_runs_first : ∃ t, step (State.reset.withFetchWord 32 0x2B000000) = .next t ∧
    t.A = [0xff, 0xff, 0xff, 0xff] ∧ t.port = [] := ⟨_, rfl, by decide⟩

/-! ## One command each -/

/-- 40_align_compare.md rule R44, its examples. -/
theorem test_mov_widens : issue [0x12, 0x34, 0x56, 0x78] [0xff] 0x01000000 =
    some ⟨0, false, 0, [], [0x00, 0x00, 0x00, 0xff], [0xff]⟩ := by decide

theorem test_mov_narrows : issue [0x12, 0x34, 0x56, 0x78] [0xff] 0x81000000 =
    some ⟨0, false, 0, [], [0x12, 0x34, 0x56, 0x78], [0x78]⟩ := by decide

/-- V-CMP-1, V-CMP-6 (self the narrower). -/
theorem test_cmpeq_leading_byte : issue [0xff, 0xff, 0xff, 0xff] [0xff] 0x02000000 =
    some ⟨0, false, 0, [], [0xff, 0xff, 0xff, 0xff], [0xff]⟩ := by decide

theorem test_cmpeq_narrower_self : issue [0x00, 0x00, 0x00, 0xff] [0xff] 0x82000000 =
    some ⟨0, true, 0, [], [0x00, 0x00, 0x00, 0xff], [0xff]⟩ := by decide

/-- V-CMP-7, V-CMP-9. -/
theorem test_cmplt_wider_other : issue [0xff] [0x00, 0x00, 0x01, 0x00] 0x03000000 =
    some ⟨0, true, 0, [], [0xff], [0x00, 0x00, 0x01, 0x00]⟩ := by decide

theorem test_cmplt_equal : issue [0x12, 0x34] [0x12, 0x34] 0x03000000 =
    some ⟨0, false, 0, [], [0x12, 0x34], [0x12, 0x34]⟩ := by decide

/-- V-CMP-11, V-CMP-12. -/
theorem test_cmpgt_first_mismatch : issue [0x13, 0x34] [0x12, 0xff] 0x04000000 =
    some ⟨0, true, 0, [], [0x13, 0x34], [0x12, 0xff]⟩ := by decide

theorem test_cmpgt_unsigned : issue [0x80] [0x7f] 0x04000000 = some ⟨0, true, 0, [], [0x80], [0x7f]⟩ := by decide

/-- V-CMP-14, V-CMP-9. -/
theorem test_cmple_greater : issue [0x01, 0x00, 0x00] [0xff, 0xff] 0x05000000 =
    some ⟨0, false, 0, [], [0x01, 0x00, 0x00], [0xff, 0xff]⟩ := by decide

theorem test_cmple_equal : issue [0x12, 0x34] [0x12, 0x34] 0x05000000 =
    some ⟨0, true, 0, [], [0x12, 0x34], [0x12, 0x34]⟩ := by decide

/-- V-CMP-4, V-CMP-3. -/
theorem test_cmpge_less : issue [0x00, 0x00, 0x00, 0xfe] [0xff] 0x06000000 =
    some ⟨0, false, 0, [], [0x00, 0x00, 0x00, 0xfe], [0xff]⟩ := by decide

theorem test_cmpge_equal : issue [0x00, 0x00, 0x00, 0x00] [0x00] 0x06000000 =
    some ⟨0, true, 0, [], [0x00, 0x00, 0x00, 0x00], [0x00]⟩ := by decide

/-- V-SH-7, V-SH-13. -/
theorem test_shr_across_bytes : issue [0x12, 0x34, 0x56, 0x78] [0x00] 0x0800000D =
    some ⟨0, false, 0, [], [0x00, 0x00, 0x91, 0xa2], [0x00]⟩ := by decide

theorem test_shr_largest_count : issue [0x12, 0x34, 0x56, 0x78] [0x00] 0x08FFFFFF =
    some ⟨0, false, 0, [], [0x00, 0x00, 0x00, 0x00], [0x00]⟩ := by decide

/-- V-SH-7, V-SH-20 (no rotation). -/
theorem test_shl_across_bytes : issue [0x12, 0x34, 0x56, 0x78] [0x00] 0x0900000D =
    some ⟨0, false, 0, [], [0x8a, 0xcf, 0x00, 0x00], [0x00]⟩ := by decide

theorem test_shl_drops_top_bit : issue [0x80, 0x01] [0x00] 0x09000001 =
    some ⟨0, false, 0, [], [0x00, 0x02], [0x00]⟩ := by decide

/-- V-ADD-7 (the carry test), V-ADD-8 (wider other). -/
theorem test_add_true_carry : issue [0x00, 0xff, 0xff] [0x00, 0xff, 0x01] 0x10000000 =
    some ⟨0, false, 0, [], [0x01, 0xff, 0x00], [0x00, 0xff, 0x01]⟩ := by decide

theorem test_add_wider_other : issue [0x01] [0xff, 0xff] 0x10000000 =
    some ⟨0, false, 0, [], [0x00], [0xff, 0xff]⟩ := by decide

/-- V-ADD-13 (borrow, narrower other), V-ADD-8 (wider other). -/
theorem test_sub_borrow : issue [0x00, 0x00, 0x01, 0x00] [0x01] 0x11000000 =
    some ⟨0, false, 0, [], [0x00, 0x00, 0x00, 0xff], [0x01]⟩ := by decide

theorem test_sub_wider_other : issue [0x01] [0xff, 0xff] 0x11000000 =
    some ⟨0, false, 0, [], [0x02], [0xff, 0xff]⟩ := by decide

/-- V-MUL-5 (wider other), V-MUL-6. -/
theorem test_mul_wider_other : issue [0xff] [0x01, 0x02] 0x18000000 =
    some ⟨0, false, 0, [], [0xfe], [0x01, 0x02]⟩ := by decide

theorem test_mul_wraps : issue [0xff, 0xff] [0xff] 0x18000000 =
    some ⟨0, false, 0, [], [0xff, 0x01], [0xff]⟩ := by decide +kernel

/-- V-DIV-11 (wider divisor with a zero leading byte), V-DIV-25 (wider zero divisor). -/
theorem test_div_wider_divisor : issue [0xff] [0x00, 0x10] 0x20000000 =
    some ⟨0, false, 0, [], [0x0f], [0x00, 0x10]⟩ := by decide +kernel

theorem test_div_by_zero : issue [0x12] [0x00, 0x00, 0x00] 0x20000000 =
    some ⟨3, false, 0, [], [0x12], [0x00, 0x00, 0x00]⟩ := by decide

/-- V-DIV-7 (narrower divisor), V-DIV-11. -/
theorem test_mod_narrower_divisor : issue [0x12, 0x34] [0x07] 0x21000000 =
    some ⟨0, false, 0, [], [0x00, 0x05], [0x07]⟩ := by decide +kernel

theorem test_mod_wider_divisor : issue [0xff] [0x00, 0x10] 0x21000000 =
    some ⟨0, false, 0, [], [0x0f], [0x00, 0x10]⟩ := by decide +kernel

/-- V-BIT-1, V-BIT-5 (unequal widths). -/
theorem test_and : issue [0xf0, 0x3c] [0xaa, 0x0f] 0x28000000 =
    some ⟨0, false, 0, [], [0xa0, 0x0c], [0xaa, 0x0f]⟩ := by decide

theorem test_and_unequal_widths : issue [0x12, 0x34] [0x01, 0xff, 0xff] 0xA8000000 =
    some ⟨4, false, 0, [], [0x12, 0x34], [0x01, 0xff, 0xff]⟩ := by decide

/-- V-BIT-1, V-BIT-5. -/
theorem test_or : issue [0xf0, 0x3c] [0xaa, 0x0f] 0x29000000 =
    some ⟨0, false, 0, [], [0xfa, 0x3f], [0xaa, 0x0f]⟩ := by decide

theorem test_or_unequal_widths : issue [0x12, 0x34] [0x01, 0xff, 0xff] 0x29000000 =
    some ⟨4, false, 0, [], [0x12, 0x34], [0x01, 0xff, 0xff]⟩ := by decide

/-- V-BIT-1, V-BIT-5. -/
theorem test_xor : issue [0xf0, 0x3c] [0xaa, 0x0f] 0x2A000000 =
    some ⟨0, false, 0, [], [0x5a, 0x33], [0xaa, 0x0f]⟩ := by decide

theorem test_xor_unequal_widths : issue [0x12, 0x34] [0x01, 0xff, 0xff] 0x2A000000 =
    some ⟨4, false, 0, [], [0x12, 0x34], [0x01, 0xff, 0xff]⟩ := by decide

/-- V-BIT-1 on self B; V-BIT-5: NOT exists at unequal widths. -/
theorem test_not_unequal_widths : issue [0x00] [0xf0, 0x3c] 0xAB000000 =
    some ⟨0, false, 0, [], [0x00], [0x0f, 0xc3]⟩ := by decide

/-- V-HEX-3 (mixed case), V-HEX-10 (the length is reported, not the bad character). -/
theorem test_hexin_mixed_case : issue [0, 0, 0, 0] [0] 0x30000000 [0x44, 0x65, 0x61, 0x64, 0x42, 0x65, 0x65, 0x66] =
    some ⟨0, false, 0, [], [0xde, 0xad, 0xbe, 0xef], [0]⟩ := by decide

theorem test_hexin_length_first : issue [1, 2, 3, 4] [0] 0x30000000
    [0x30, 0x78, 0x30, 0x30, 0x30, 0x30, 0x30, 0x30, 0x30, 0x66] =
    some ⟨1, false, 10, [], [1, 2, 3, 4], [0]⟩ := by decide

/-- 46_hex_codec.md rules R87 and R88, their examples. -/
theorem test_hexout : issue [0x00, 0x00, 0x00, 0x0f] [0] 0x31000000 =
    some ⟨0, false, 0, [0x30, 0x30, 0x30, 0x30, 0x30, 0x30, 0x30, 0x66], [0x00, 0x00, 0x00, 0x0f], [0]⟩ := by decide

theorem test_hexoutx : issue [0xff] [0] 0x32000000 = some ⟨0, false, 0, [0x30, 0x78, 0x66, 0x66], [0xff], [0]⟩ := by
  decide

/-- 47_access.md rule R90, its examples. -/
theorem test_getbit_top : issue [0x80, 0, 0, 0x01] [0] 0x3800001F =
    some ⟨0, true, 0, [], [0x80, 0, 0, 0x01], [0]⟩ := by decide

theorem test_getbit_range : issue [0x80, 0, 0, 0x01] [0] 0x38000020 =
    some ⟨2, false, 32, [], [0x80, 0, 0, 0x01], [0]⟩ := by decide

/-- 47_access.md rules R91 and R92, their examples. -/
theorem test_rank_second_byte : issue [0x01, 0x00] [0] 0x39000000 = some ⟨0, false, 9, [], [0x01, 0x00], [0]⟩ := by
  decide

theorem test_rank_zero : issue [0x00, 0x00] [0] 0x39000000 = some ⟨0, false, 0, [], [0x00, 0x00], [0]⟩ := by decide

/-- 47_access.md rule R93, its example, on self B. -/
theorem test_clr : issue [0xaa] [0x12, 0x34] 0xC0000000 = some ⟨0, false, 0, [], [0xaa], [0x00, 0x00]⟩ := by decide

/-- 47_access.md rule R94, its examples. -/
theorem test_rdb_first : issue [0x12, 0x34, 0x56, 0x78] [0] 0x41000000 =
    some ⟨0, false, 0x12, [], [0x12, 0x34, 0x56, 0x78], [0]⟩ := by decide

theorem test_rdb_range : issue [0x12, 0x34, 0x56, 0x78] [0] 0x41000400 =
    some ⟨2, false, 4, [], [0x12, 0x34, 0x56, 0x78], [0]⟩ := by decide

/-- 47_access.md rule R95, its examples. -/
theorem test_wrb : issue [0, 0, 0, 0] [0] 0x420001AB = some ⟨0, false, 0, [], [0x00, 0xab, 0x00, 0x00], [0]⟩ := by
  decide

theorem test_wrb_range : issue [0, 0, 0, 0] [0] 0x420004AB = some ⟨2, false, 4, [], [0, 0, 0, 0], [0]⟩ := by decide

/-- 47_access.md rules R96 and R97, their examples. -/
theorem test_dump : issue [0x12, 0x34, 0x56, 0x78] [0] 0x43000000 =
    some ⟨0, false, 0, [0x12, 0x34, 0x56, 0x78], [0x12, 0x34, 0x56, 0x78], [0]⟩ := by decide

theorem test_bits : issue [0xa5] [0] 0x44000000 = some ⟨0, false, 0, [1, 0, 1, 0, 0, 1, 0, 1], [0xa5], [0]⟩ := by decide

/-- P4 steps 14 to 17 (raw words). -/
theorem test_illegal_words : issue [0x12, 0x33] [0x01, 0xff, 0xff] 0x00000000 =
    some ⟨4, false, 0, [], [0x12, 0x33], [0x01, 0xff, 0xff]⟩ ∧
    issue [0x12, 0x33] [0x01, 0xff, 0xff] 0x41000101 = some ⟨4, false, 0, [], [0x12, 0x33], [0x01, 0xff, 0xff]⟩ := by
  decide

/-! ## Internal functions -/

/-- V-NEG-3, V-NEG-8. -/
theorem test_neg : neg [0x80] = [0x80] ∧ neg [0x00, 0x00, 0x00] = [0x00, 0x00, 0x00] := by decide

/-- V-MULC-1 (the wraparound check), V-MULC-2 (the rank check), V-MULC-4. -/
theorem test_mulc : mulc [0x60] [0x03] = (true, [0x20]) ∧ mulc [0x80] [0x03] = (true, [0x80]) ∧
    mulc [0x0f] [0x11] = (false, [0xff]) := by decide

/-! ## Witnesses: for each statement with hypotheses, an input that meets them, each clause at its boundary -/

theorem witness_ResetLeavesBothRegistersZero : 3 < (State.resetOf 4 1).width .A ∧ 0 < (State.resetOf 4 1).width .B := by
  decide

theorem witness_ResetStatesAreStatesOfAnInstance : 1 ≤ 1 ∧ 1 ≤ 65535 ∧ 1 ≤ 65535 ∧ 65535 ≤ 65535 := by decide

theorem witness_EveryStepKeepsTheInstance : ∃ s t : State, step s = .next t ∧ s.wf = true ∧ s.port ≠ [] :=
  ⟨{ st [1, 2] [3] with port := [{ word := 0x10000000, din := [] }] }, _, rfl, by decide, by decide⟩

theorem witness_RunOverThePortEndsIdleAndStaysThere : ({ st [1] [3] with port := [{ word := 0, din := [] }] } : State).port ≠ [] ∧
    ({ st [1] [3] with port := [{ word := 0, din := [] }] } : State).port.length ≤ 1 := by decide

theorem witness_OneStepAnswersOneCommand : (∃ (s : State) (c : Command) (cs : List Command), s.port = c :: cs ∧ cs ≠ []) ∧
    (st [0] [0]).port = [] :=
  ⟨⟨{ st [0] [0] with port := [{ word := 0, din := [1] }, { word := 0x10000000, din := [] }] }, _, _, rfl, by decide⟩,
    rfl⟩

theorem witness_StepRunsTheDecodedCommand :
    (∃ (s : State) (c : Command) (cs : List Command), s.port = c :: cs ∧ decode c.word = .ok (.hexin .B)) ∧
    decode 0x10000000 = .ok (.add .A) ∧ State.reset.port = [] :=
  ⟨⟨{ st [0] [0] with port := [{ word := 0xB0000000, din := [0x66, 0x66] }] }, _, _, rfl, by decide⟩, by decide, rfl⟩

theorem witness_OutcomeDependsOnRegistersAndCommandOnly : ∃ (s s' : State) (c : Command) (cs cs' : List Command),
    s.A = s'.A ∧ s.B = s'.B ∧ s.port = c :: cs ∧ s'.port = c :: cs' ∧ cs ≠ cs' ∧ s.din ≠ s'.din ∧ s.resp ≠ s'.resp :=
  ⟨{ st [1] [2] with port := [{ word := 0x10000000, din := [] }] },
    { A := [1], B := [2], din := [7], resp := some okResponse
      port := [{ word := 0x10000000, din := [] }, { word := 0, din := [] }] },
    _, _, _, rfl, rfl, rfl, rfl, by decide, by decide, by decide⟩

theorem witness_CharactersReachHexinOnly : ∀ r, Instr.add .A ≠ .hexin r := by intro r; cases r <;> decide

theorem witness_UnreadOtherHasNoEffect : (Instr.wrb .A 0 7).readsOther = false ∧
    (st [1] [2]).reg .A = (st [1] [3, 4]).reg .A ∧ (st [1] [2]).din = (st [1] [3, 4]).din ∧
    (st [1] [2]).otherReg .A ≠ (st [1] [3, 4]).otherReg .A := by decide

/-- WRB stores its one byte and no other, ADD every byte of self, CMPEQ none. -/
theorem witness_EveryCommandKeepsItsFrame : (Instr.wrb .A 1 7).stores (st [1, 2] [3]) .A 0 = false ∧
    (Instr.wrb .A 1 7).stores (st [1, 2] [3]) .A 1 = true ∧ (Instr.add .A).stores (st [1, 2] [3]) .B 0 = false ∧
    (Instr.cmpeq .A).stores (st [1, 2] [3]) .A 0 = false := by decide

theorem witness_BothRolesFollowTheSameRules : ∃ t, exec (.add .A) (st [1] [2, 3]) = .next t ∧ t.A = [4] :=
  ⟨_, rfl, by decide⟩

theorem witness_DecodingAnEncodedCommandGivesItBack : (Instr.shl .B 16777215).wellFormed = true ∧
    (Instr.wrb .A 65535 0xff).wellFormed = true ∧ (Instr.rdb .B 65535).wellFormed = true := by decide

theorem witness_EveryAcceptedWordIsTheEncodingOfItsCommand : decode 0xC2FFFFFF = .ok (.wrb .B 65535 0xff) := by decide

/-- One word of each case of R38, and beside it the nearest legal one. -/
theorem witness_IllegalCommandExactlyForTheListedWords :
    IllegalWord 2 3 0x07000000 ∧ ¬ IllegalWord 2 3 0x06000000 ∧ IllegalWord 2 3 0x45000000 ∧
    ¬ IllegalWord 2 3 0xC4000000 ∧ IllegalWord 2 2 0x10000001 ∧ ¬ IllegalWord 2 2 0x08000001 ∧
    IllegalWord 2 2 0x41000001 ∧ ¬ IllegalWord 2 2 0x41FFFF00 ∧ ¬ IllegalWord 2 2 0x42000001 ∧
    IllegalWord 2 3 0xAA000000 ∧ ¬ IllegalWord 2 2 0xAA000000 ∧ ¬ IllegalWord 2 3 0x2B000000 := by
  refine ⟨?_, ?_, ?_, ?_, ?_, ?_, ?_, ?_, ?_, ?_, ?_, ?_⟩ <;> unfold IllegalWord <;> decide

/-- Every error of R98, and a success of the same command. -/
theorem witness_ErrorsAreThoseOfTheTable :
    (∃ (s : State) (c : Command) (cs : List Command), s.port = c :: cs ∧ decode c.word = .error .unassignedOpcode) ∧
    (Instr.hexin .A).errorIn (st [0] [0] [0x30, 0x30, 0x30]) =
      some { status := .parseError, flag := false, val := 3, dout := [] } ∧
    (Instr.hexin .A).errorIn (st [0] [0] [0x67, 0x7a]) =
      some { status := .parseError, flag := true, val := 0x67, dout := [] } ∧
    (Instr.hexin .A).errorIn (st [0] [0] [0x30, 0x46]) = none ∧
    (Instr.rdb .A 1).errorIn (st [0] [0]) = some { status := .rangeError, flag := false, val := 1, dout := [] } ∧
    (Instr.wrb .A 0 9).errorIn (st [0] [0]) = none ∧
    (Instr.getbit .A 8).errorIn (st [0] [0]) = some { status := .rangeError, flag := false, val := 8, dout := [] } ∧
    (Instr.getbit .A 7).errorIn (st [0] [0]) = none ∧
    (Instr.div .A).errorIn (st [1] [0]) = some { status := .divideByZeroError, flag := false, val := 0, dout := [] } ∧
    (Instr.mod .A).errorIn (st [0] [1]) = none ∧
    (Instr.xor .A).errorIn (st [0] [0, 0]) = some { status := .illegalCommand, flag := false, val := 0, dout := [] } ∧
    (Instr.xor .A).errorIn (st [0] [0]) = none :=
  ⟨⟨{ st [0] [0] with port := [{ word := 0, din := [] }] }, _, _, rfl, by decide⟩, by decide⟩

theorem witness_ErrorsWriteNothingAndLeaveNoTrace :
    ∃ (s t : State) (c : Command) (cs : List Command) (a : Response) (d : Command) (ds : List Command),
      s.port = c :: cs ∧ step s = .next t ∧ t.resp = some a ∧ a.status ≠ .ok ∧ cs = d :: ds :=
  ⟨{ st [5] [0] with port := [{ word := 0x20000000, din := [] }, { word := 0x39000000, din := [] }] },
    _, _, _, _, _, _, rfl, rfl, rfl, by decide, rfl⟩

/-- A byte of the source at either end of the aligned range, and one beyond it; each width case. -/
theorem witness_AlignmentMatchesLeastSignificantEnds :
    (3 < 4 ∧ (4 ≤ 3 + [7].length ∧ 3 + [7].length - 4 < [7].length)) ∧ ¬ (4 ≤ 2 + [7].length) ∧
    ([7] : List Byte).length ≤ 4 ∧ 1 ≤ ([7, 8] : List Byte).length ∧ ([7, 8] : List Byte).length = 2 := by decide

theorem witness_MovCopiesOtherAligned : 3 < (st [1, 2, 3, 4] [5]).width .A := by decide

theorem witness_EqualityComparesAlignedBytes :
    ([0xff] : List Byte).length ≤ ([0, 0, 0, 0xff] : List Byte).length ∧
    (∀ i, i < 4 - 1 → byteAt [0, 0, 0, 0xff] i = 0) ∧
    ∀ i, i < 1 → byteAt [0, 0, 0, 0xff] (4 - 1 + i) = byteAt [0xff] i := by decide

/-- A nonzero leading byte; a first mismatch above and below; no mismatch. -/
theorem witness_OrderingIsDecidedMostSignificantFirst :
    byteAt [0, 1, 0] 1 ≠ 0 ∧ (∀ i, i < 1 → byteAt [0, 7, 9] i = 0) ∧
    ((∀ j, j < 1 → byteAt [0, 7, 9] (1 + j) = byteAt [7, 8] j) ∧
      (byteAt [7, 8] 1).toNat < (byteAt [0, 7, 9] (1 + 1)).toNat) ∧
    ((∀ j, j < 0 → byteAt [0, 6, 9] (1 + j) = byteAt [7, 8] j) ∧
      (byteAt [0, 6, 9] (1 + 0)).toNat < (byteAt [7, 8] 0).toNat) ∧
    ∀ i, i < 2 → byteAt [0, 7, 8] (1 + i) = byteAt [7, 8] i := by decide

theorem witness_ComparatorLaws : ([7] : List Byte).length ≤ 1 ∧ 1 < ([1, 7] : List Byte).length ∧ 0 < 2 - 1 ∧
    byteAt [1, 7] 0 ≠ 0 := by decide

/-- A byte whose window has both its bytes in the value, and one at the edge. -/
theorem witness_ShiftersTakeWindowsOfAdjacentBytes : 16777215 < 16777216 ∧ 1 < (st [1, 2] [0]).width .A ∧
    9 / 8 + 1 ≤ 2 ∧ ¬ (9 / 8 + 1 ≤ 1) ∧ 0 + 9 / 8 + 1 < 3 ∧ ¬ (0 + 9 / 8 + 1 < 2) := by decide

theorem witness_ShiftsScaleByPowersOfTwo : 15 < 8 * (st [1, 2] [0]).width .A ∧ 15 ≤ 15 := by decide

theorem witness_ShiftCountsActAsTheLawsSay : 8 * ([1, 2] : List Byte).length ≤ 16 := by decide

theorem witness_AddRipplesTheTrueCarry : 2 < (st [0, 0xff, 0xff] [0, 0xff, 1]).width .A := by decide

/-- A product that fits, one that does not, a zero operand, and one set bit on both sides of the rank check. -/
theorem witness_CheckedMultiplyIsExact :
    ([0x11] : List Byte).length = ([0x0f] : List Byte).length ∧ (mulc [0x0f] [0x11]).1 = false ∧
    (mulc [0x10] [0x10]).1 = true ∧ ([0] : List Byte) = zero 1 ∧ val [0x20] = 2 ^ 5 ∧ 5 < 8 * 1 ∧
    8 * 1 < rank [0x0f] + 5 ∧ ¬ 8 * 1 < rank [0x07] + 5 := by decide

theorem witness_ZeroAndOneActAsIdentities : val ((st [9] [0, 0]).otherReg .A) = 0 ∧
    val ((st [9] [0, 1]).otherReg .A) = 1 := by decide

theorem witness_DivideByZeroForAnyDividend :
    (∀ j, j < (st [9] [0, 0]).width .B → memRead (st [9] [0, 0]) .B j = 0) ∧
    (1 < (st [9] [0, 1]).width .B ∧ memRead (st [9] [0, 1]) .B 1 ≠ 0) := by decide

theorem witness_DivIsTheFloorQuotient : val ((st [0xff] [0, 0x10]).otherReg .A) ≠ 0 := by decide

theorem witness_ModIsTheRemainder : val ((st [0xff] [1, 0]).otherReg .A) ≠ 0 := by decide

theorem witness_QuotientAndRemainderRebuildTheDividend : val ((st [0x12, 0x34] [7]).otherReg .A) ≠ 0 := by decide

theorem witness_DividerEndsWithTheExactRemainder : ([7] : List Byte).length = ([0xc8] : List Byte).length ∧
    val [7] ≠ 0 := by decide

theorem witness_BitwiseCombinesBytesOfEqualWidths : ((st [1, 2] [3, 4]).A.length = (st [1, 2] [3, 4]).B.length ∧
      1 < (st [1, 2] [3, 4]).width .A) ∧
    ((st [1, 2] [3]).A.length ≠ (st [1, 2] [3]).B.length ∧
      Instr.xor .A ∈ [Instr.and .A, Instr.or .A, Instr.xor .A]) := by decide

theorem witness_NotInvertsEveryByte : 1 < (st [1, 2] [0]).width .A := by decide

theorem witness_HexAlphabetIsTwentyTwoCharacters : 9 < 10 ∧ 5 < 6 := by decide

/-- A wrong length; a bad character, first at the start and at the end; a good string. -/
theorem witness_HexinParsesOrReportsWhatIsWrong :
    (st [0] [0] []).din.length ≠ 2 * (st [0] [0]).width .A ∧
    ((st [0] [0] [0x2f, 0x3a]).din.length = 2 * (st [0] [0]).width .A ∧ hexval (byteAt [0x2f, 0x3a] 0) = none) ∧
    (hexval (byteAt [0x39, 0x67] 1) = none ∧ ∀ k, k < 1 → hexval (byteAt [0x39, 0x67] k) ≠ none) ∧
    ((∀ j, j < 2 * (st [0] [0]).width .A → hexval (byteAt [0x46, 0x61] j) ≠ none) ∧
      hexval (byteAt [0x46, 0x61] (2 * 0)) = some 15 ∧ hexval (byteAt [0x46, 0x61] (2 * 0 + 1)) = some 10) := by decide

theorem witness_HexoutSerializesEveryByte : 1 < (st [1, 2] [0]).width .A := by decide

theorem witness_HexRoundTrip : (st [5, 6] []).width .A = (st [1, 2] [3]).width .A ∧
    (st [0] [0] [0x30]).din.length ≠ 2 * (st [0] [0]).width .A ∧ (0x67 : Byte) ∈ (st [0] [0] [0x30, 0x67]).din ∧
    hexval 0x67 = none := by decide

theorem witness_GetbitReadsOneBit : 16777215 < 16777216 ∧ 8 * (st [1, 2] [0]).width .A ≤ 16 ∧
    15 < 8 * (st [1, 2] [0]).width .A := by decide

/-- The zero value; a highest bit at the top of the register and one below it. -/
theorem witness_RankIsTheHighestSetBit : Memory.wf ((st [0x80, 1] [0]).reg .A) = true ∧
    (∀ p, p < 8 * (st [0, 0] [0]).width .A → bit [0, 0] p = false) ∧
    (15 < 8 * (st [0x80, 1] [0]).width .A ∧ bit [0x80, 1] 15 = true ∧
      ∀ q, 15 < q → q < 8 * (st [0x80, 1] [0]).width .A → bit [0x80, 1] q = false) ∧
    (bit [0, 0x21] 5 = true ∧ ∀ q, 5 < q → q < 8 * (st [0, 0x21] [0]).width .A → bit [0, 0x21] q = false) := by
  refine ⟨by decide, by decide, ⟨by decide, by decide, fun q h₁ h₂ => ?_⟩, by decide, fun q h₁ h₂ => ?_⟩
  · have h₂ : q < 16 := h₂
    omega
  · have h₂ : q < 16 := h₂
    interval_cases q <;> decide

theorem witness_ClrGivesTheResetContent : 1 < (st [1, 2] [0]).width .A := by decide

theorem witness_RdbReadsOneByte : 65535 < 65536 ∧ 1 < (st [1, 2] [0]).width .A ∧ (st [1, 2] [0]).width .A ≤ 2 := by
  decide

theorem witness_WrbWritesOneByte : 65535 < 65536 ∧ 1 < (st [1, 2] [0]).width .A ∧ (st [1, 2] [0]).width .A ≤ 2 ∧
    (Reg.A, 0) ≠ (Reg.A, 1) ∧ (Reg.B, 1) ≠ (Reg.A, 1) := by decide

theorem witness_DumpAndBitsGiveTheWholeValue : 1 < (st [1, 2] [0]).width .A ∧ 15 < 8 * (st [1, 2] [0]).width .A := by
  decide

theorem witness_ReadingByteByByteGivesTheDump : (st [1, 2] [0]).width .A ≤ 65535 ∧ 1 < (st [1, 2] [0]).width .A := by
  decide

theorem witness_AWrittenByteIsReadBack : 1 < (st [1, 2] [0]).width .A := by decide

theorem witness_AnyValueCanBeLoadedByteByByte : ([7, 8] : List Byte).length = (st [1, 2] [0]).width .A ∧
    ([7, 8] : List Byte).length ≤ 65535 := by decide

end Sys2Proof.Tests
end

section
/-! SUPPORT. What a command may depend on: the registers, its own word and its own characters (00_scope.md rule R7). -/

namespace Sys2Proof.Machine

/-- Both registers hold the same in `s` and `t`, so self and other do, whichever is which (R33). -/
theorem State.reg_congr {s t : State} (hA : s.A = t.A) (hB : s.B = t.B) (r : Reg) : s.reg r = t.reg r := by
  cases r with
  | A => exact hA
  | B => exact hB

/-- A command that has one result in two states with the same registers leaves the same registers and the same
response in both. -/
theorem exec_congr_of_result {i : Instr} {s t : State} (hA : s.A = t.A) (hB : s.B = t.B)
    (hres : resultOf i (s.reg i.self) (s.otherReg i.self) s.din = resultOf i (t.reg i.self) (t.otherReg i.self) t.din) :
    ∃ s' t', exec i s = .next s' ∧ exec i t = .next t' ∧ s'.A = t'.A ∧ s'.B = t'.B ∧ s'.resp = t'.resp := by
  refine ⟨_, _, exec_eq_result i s, exec_eq_result i t, ?_⟩
  rw [hres]
  exact State.finish_congr hA hB i.self _

/-- The outcome of a command depends on the registers and its characters only. -/
theorem exec_congr (i : Instr) {s t : State} (hA : s.A = t.A) (hB : s.B = t.B) (hdin : s.din = t.din) :
    ∃ s' t', exec i s = .next s' ∧ exec i t = .next t' ∧ s'.A = t'.A ∧ s'.B = t'.B ∧ s'.resp = t'.resp := by
  have hself : s.reg i.self = t.reg i.self := State.reg_congr hA hB i.self
  have hother : s.otherReg i.self = t.otherReg i.self := State.reg_congr hA hB i.self.other
  exact exec_congr_of_result hA hB (by rw [hself, hother, hdin])

/-- Settles O7: a refused word is answered from the word alone, and an accepted one runs in two states whose registers
and characters are the same. -/
theorem outcomeDependsOnRegistersAndCommandOnly : Obligations.OutcomeDependsOnRegistersAndCommandOnly := by
  intro s s' c cs cs' hA hB hs hs'
  cases hd : decode c.word with
  | error e => exact ⟨_, _, step_of_illegal s hs hd, step_of_illegal s' hs' hd, hA, hB, rfl⟩
  | ok i =>
    rw [step_of_decode s hs hd, step_of_decode s' hs' hd]
    exact exec_congr i hA hB rfl

end Sys2Proof.Machine
end

section
/-! SUPPORT. What the registers hold after reset (10_state.md rule R17). -/

namespace Sys2Proof.Machine

/-- Every byte of `zero_N` is 0, since its number is. -/
theorem byteAt_zero {N i : Nat} (h : i < N) : byteAt (zero N) i = 0 :=
  (val_eq_zero_iff_byteAt (zero N)).1 (val_zero N) i (by rwa [zero_length])

@[simp] theorem State.resetOf_A (S T : Nat) : (State.resetOf S T).A = zero S := (zero_eq_replicate S).symm

@[simp] theorem State.resetOf_B (S T : Nat) : (State.resetOf S T).B = zero T := (zero_eq_replicate T).symm

/-- After reset each register is the zero value of its own width (R17). -/
theorem State.resetOf_reg (S T : Nat) (r : Reg) :
    (State.resetOf S T).reg r = zero ((State.resetOf S T).width r) := by
  cases r with
  | A => simp [State.width]
  | B => simp [State.width]

/-- After reset each byte reads 0 (R17). -/
theorem memRead_resetOf {S T : Nat} {r : Reg} {j : Nat} (h : j < (State.resetOf S T).width r) :
    memRead (State.resetOf S T) r j = 0 := by
  rw [memRead, State.resetOf_reg, byteAt_zero h]

/-- Settles O1: reset writes zero_S and zero_T, whose widths are S and T and whose bytes are 0, and `State.reset` is one
such state. -/
theorem resetLeavesBothRegistersZero : Obligations.ResetLeavesBothRegistersZero := by
  refine ⟨fun S T => ⟨State.resetOf_A S T, State.resetOf_B S T, ?widthA, ?widthB, fun _ _ => memRead_resetOf⟩,
    State.resetOf_reg Config.S Config.T⟩
  case widthA => simp [State.width]
  case widthB => simp [State.width]

end Sys2Proof.Machine
end

section
/-! SUPPORT. The decoder, said once by the formats of R34, and R38: its cases (a) to (c) are the words the decoder
refuses, its case (d) the instructions that do not exist at the registers' widths. -/

namespace Sys2Proof.Machine

/-- What the decoder can answer for a word: one case for an unassigned `op`, one for each format (R34). -/
inductive Decoded (w : Word) : Except Illegal Instr → Prop where
  /-- No operation has the code. -/
  | unassigned (h : fieldOp w ∉ assignedOps) : Decoded w (.error .unassignedOpcode)
  /-- Format N. -/
  | formatN (i : Instr) (hself : fieldSelf w = i.self) (hop : fieldOp w = i.opcode) (himm : i.imm = 0)
      (hformat : i.opcode ∉ operandOps) : Decoded w (formatN w i)
  /-- Format K, and format X of WRB: every value of `imm24` is an operand. -/
  | operand (i : Instr) (hself : fieldSelf w = i.self) (hop : fieldOp w = i.opcode) (himm : fieldImm w = i.imm) :
      Decoded w (.ok i)
  /-- Format X of RDB. -/
  | formatX0 (hop : fieldOp w = 0x41) : Decoded w (formatX0 w (.rdb (fieldSelf w) (fieldIdx w)))

/-- The two fields of format X make up `imm24` (R34). -/
theorem fieldImm_eq (w : Word) : fieldImm w = fieldIdx w * 256 + (fieldV8 w).toNat := by
  rw [fieldV8, BitVec.toNat_ofNat, lowByte_eq, fieldIdx_eq]
  omega

theorem decoded (w : Word) : Decoded w (decode w) := by
  unfold decode
  split <;> rename_i hop
  case h_7 | h_8 | h_21 => exact .operand _ rfl hop rfl
  case h_24 => exact .formatX0 hop
  case h_25 => exact .operand _ rfl hop (fieldImm_eq w)
  case h_28 => exact .unassigned (by simp_all [assignedOps])
  all_goals exact .formatN _ rfl hop rfl (by simp [Instr.opcode, operandOps])

/-- An accepted word carries its instruction's self, code and immediate. -/
theorem fields_of_decode {w : Word} {i : Instr} (h : decode w = .ok i) :
    fieldSelf w = i.self ∧ fieldOp w = i.opcode ∧ fieldImm w = i.imm := by
  have hd := decoded w
  generalize decode w = x at hd h
  cases hd with
  | unassigned _ => cases h
  | formatN j hself hop himm _ =>
    obtain ⟨hzero, rfl⟩ := (formatN_ok_iff w j i).1 h
    exact ⟨hself, hop, hzero.trans himm.symm⟩
  | operand j hself hop himm =>
    cases h
    exact ⟨hself, hop, himm⟩
  | formatX0 hop =>
    obtain ⟨hzero, rfl⟩ := (formatX0_ok_iff w _ i).1 h
    refine ⟨rfl, hop, ?_⟩
    rw [lowByte_eq] at hzero
    rw [Instr.imm, fieldIdx_eq]
    omega

theorem opcode_mem_assignedOps (i : Instr) : i.opcode ∈ assignedOps := by cases i <;> simp [Instr.opcode, assignedOps]

/-- A command of format N has no operand. -/
theorem imm_eq_zero_of_not_mem_operandOps {i : Instr} (h : i.opcode ∉ operandOps) : i.imm = 0 := by
  cases i with
  | shr | shl | getbit | rdb | wrb => exact absurd h (by simp [Instr.opcode, operandOps])
  | _ => rfl

/-- RDB has no byte operand. -/
theorem imm_mod_of_opcode_rdb {i : Instr} (h : i.opcode = 0x41) : i.imm % 256 = 0 := by
  cases i with
  | rdb r idx => simp [Instr.imm]
  | _ => simp [Instr.opcode] at h

/-- Only AND, OR and XOR can be missing, at unequal widths (R84). -/
theorem existsIn_eq_false_iff (i : Instr) (S T : Nat) :
    i.existsIn S T = false ↔ i.opcode ∈ [0x28, 0x29, 0x2A] ∧ S ≠ T := by
  cases i <;> simp [Instr.existsIn, Instr.opcode]

/-- The words the decoder refuses are illegal at all widths: R38 (a) to (c). -/
theorem illegalWord_of_decode_error {w : Word} {e : Illegal} (h : decode w = .error e) (S T : Nat) :
    IllegalWord S T w := by
  have hd := decoded w
  generalize decode w = x at hd h
  cases hd with
  | unassigned hop => exact Or.inl hop
  | formatN i _ hop _ hformat =>
    have hop : cmdBits w 30 24 = i.opcode := hop
    refine Or.inr (Or.inl ⟨hop ▸ opcode_mem_assignedOps i, hop ▸ hformat, fun hzero => ?_⟩)
    cases h.symm.trans ((formatN_ok_iff w i i).2 ⟨hzero, rfl⟩)
  | operand _ _ _ _ => cases h
  | formatX0 hop =>
    refine Or.inr (Or.inr (Or.inl ⟨hop, fun hzero => ?_⟩))
    cases h.symm.trans ((formatX0_ok_iff w _ _).2 ⟨hzero, rfl⟩)

/-- A word the decoder accepts is illegal exactly where its instruction does not exist: R38 (d). -/
theorem illegalWord_iff_of_decode {w : Word} {i : Instr} (h : decode w = .ok i) (S T : Nat) :
    IllegalWord S T w ↔ i.existsIn S T = false := by
  obtain ⟨-, hop, himm⟩ : _ ∧ cmdBits w 30 24 = i.opcode ∧ fieldImm w = i.imm := fields_of_decode h
  rw [existsIn_eq_false_iff, IllegalWord, hop, lowByte_eq, himm]
  constructor
  · rintro (hunassigned | ⟨-, hformat, hne⟩ | ⟨hrdb, hne⟩ | hwidths)
    · exact absurd (opcode_mem_assignedOps i) hunassigned
    · exact absurd (himm.trans (imm_eq_zero_of_not_mem_operandOps hformat)) hne
    · exact absurd (imm_mod_of_opcode_rdb hrdb) hne
    · exact hwidths
  · exact fun hwidths => Or.inr (Or.inr (Or.inr hwidths))

end Sys2Proof.Machine
end

section
/-! SUPPORT. Which commands answer IllegalCommand: those whose instruction does not exist at the widths of the
registers, and no other (30_encoding.md rule R38 (d), 45_bitwise.md rule R84). -/

namespace Sys2Proof.Machine

theorem existsIn_comm (i : Instr) (S T : Nat) : i.existsIn S T = i.existsIn T S := by
  cases i <;> simp [Instr.existsIn, Bool.beq_comm]

/-- Whether an instruction exists does not depend on which register is self (R33). -/
theorem existsIn_reg (i : Instr) (s : State) (r : Reg) :
    i.existsIn (s.reg r).length (s.otherReg r).length = i.existsIn s.A.length s.B.length := by
  cases r with
  | A => rfl
  | B => exact existsIn_comm i _ _

/-- What is wrong with the characters is a ParseError (R86). -/
theorem parseHex_ne_illegalCommand (N : Nat) (din : List Byte) : parseHex N din ≠ .error .illegalCommand := by
  rcases parseHex_cases N din with ⟨-, h⟩ | ⟨-, c, -, h⟩ | ⟨-, -, h⟩ <;> simp [h]

/-- The result of a command is IllegalCommand exactly where its instruction does not exist. -/
theorem resultOf_eq_illegalCommand_iff (i : Instr) (x y din : List Byte) :
    resultOf i x y din = .error .illegalCommand ↔ i.existsIn x.length y.length = false := by
  cases i with
  | and r | or r | xor r => by_cases h : x.length = y.length <;> simp [resultOf, Instr.existsIn, h]
  | div r | mod r | getbit r pos | rdb r idx | wrb r idx v8 =>
    simp only [resultOf, Instr.existsIn]
    split <;> simp
  | hexin r =>
    have hne := parseHex_ne_illegalCommand x.length din
    cases h : parseHex x.length din with
    | error e => simpa [resultOf, Instr.existsIn, h] using hne
    | ok v => simp [resultOf, Instr.existsIn, h]
  | _ => simp [resultOf, Instr.existsIn]

/-- The statuses of R98 tell IllegalCommand from every other error. -/
theorem CmdError.response_status_eq_illegalCommand {e : CmdError} (h : e.response.status = .illegalCommand) :
    e = .illegalCommand := by
  cases e with
  | illegalCommand => rfl
  | _ => cases h

/-- A command that ends with another result than IllegalCommand answers another status. -/
theorem State.finish_status (s : State) (r : Reg) {x : Result} (hx : x ≠ .error .illegalCommand) :
    ∃ a, (s.finish r x).resp = some a ∧ a.status ≠ .illegalCommand := by
  cases x with
  | error e =>
    exact ⟨e.response, rfl, fun h => hx (congrArg Result.error (CmdError.response_status_eq_illegalCommand h))⟩
  | ok v f n d => exact ⟨okResponse f n d, rfl, by simp⟩

/-- An instruction that does not exist at the registers' widths answers IllegalCommand and writes nothing (R84). -/
theorem exec_of_not_existsIn {i : Instr} {s : State} (h : i.existsIn s.A.length s.B.length = false) :
    exec i s = .next (s.answer CmdError.illegalCommand.response) := by
  have hres := (resultOf_eq_illegalCommand_iff i (s.reg i.self) (s.otherReg i.self) s.din).2
    ((existsIn_reg i s i.self).trans h)
  rw [exec_eq_result, hres, State.finish]

/-- An instruction that exists at the registers' widths never answers IllegalCommand. -/
theorem exec_of_existsIn {i : Instr} {s : State} (h : i.existsIn s.A.length s.B.length ≠ false) :
    ∃ t a, exec i s = .next t ∧ t.resp = some a ∧ a.status ≠ .illegalCommand := by
  have hres : resultOf i (s.reg i.self) (s.otherReg i.self) s.din ≠ .error .illegalCommand := fun hx =>
    h ((existsIn_reg i s i.self).symm.trans ((resultOf_eq_illegalCommand_iff i _ _ _).1 hx))
  obtain ⟨a, ha, hstatus⟩ := s.finish_status i.self hres
  exact ⟨_, a, exec_eq_result i s, ha, hstatus⟩

/-- A step on an illegal word answers IllegalCommand, whether the decoder or the meaning of the instruction finds
it out. -/
theorem step_of_illegalWord {s : State} {c : Command} {cs : List Command} (hp : s.port = c :: cs)
    (h : IllegalWord s.A.length s.B.length c.word) :
    step s = .next (({ s with port := cs, din := c.din } : State).answer CmdError.illegalCommand.response) := by
  cases hd : decode c.word with
  | error e => exact step_of_illegal s hp hd
  | ok i => exact (step_of_decode s hp hd).trans (exec_of_not_existsIn ((illegalWord_iff_of_decode hd _ _).1 h))

/-- A step on a legal word answers another status. -/
theorem step_of_not_illegalWord {s : State} {c : Command} {cs : List Command} (hp : s.port = c :: cs)
    (h : ¬ IllegalWord s.A.length s.B.length c.word) :
    ∃ t a, step s = .next t ∧ t.resp = some a ∧ a.status ≠ .illegalCommand := by
  cases hd : decode c.word with
  | error e => exact absurd (illegalWord_of_decode_error hd _ _) h
  | ok i =>
    rw [step_of_decode s hp hd]
    exact exec_of_existsIn fun hex => h ((illegalWord_iff_of_decode hd _ _).2 hex)

/-- Settles O15: the illegal words are those the decoder refuses and those whose instruction does not exist at
the registers' widths. -/
theorem illegalCommandExactlyForTheListedWords : Obligations.IllegalCommandExactlyForTheListedWords := by
  refine ⟨fun s c cs hp => ?answer, fun S T => ⟨Or.inl (by decide), Or.inl (by decide)⟩⟩
  by_cases h : IllegalWord s.A.length s.B.length c.word
  · exact ⟨_, _, step_of_illegalWord hp h, rfl, fun _ => ⟨rfl, rfl, rfl⟩, fun hlegal => absurd h hlegal⟩
  · obtain ⟨t, a, hstep, hresp, hstatus⟩ := step_of_not_illegalWord hp h
    exact ⟨t, a, hstep, hresp, fun hillegal => absurd hillegal h, fun _ => hstatus⟩

end Sys2Proof.Machine
end

section
/-! SUPPORT. The decoder from the fields of a word: a word with an instruction's self, code and immediate is decoded to
that instruction (30_encoding.md rules R34 and R37). -/

namespace Sys2Proof.Machine

/-- The converse of `fields_of_decode`. -/
theorem decode_of_fields {w : Word} {i : Instr} (hself : fieldSelf w = i.self) (hop : fieldOp w = i.opcode)
    (himm : fieldImm w = i.imm) : decode w = .ok i := by
  unfold decode
  rw [hself, hop]
  cases i with
  | shr r k | shl r k | getbit r pos =>
    rw [himm]
    rfl
  | rdb r idx =>
    have hidx : fieldIdx w = idx := by rw [fieldIdx_eq, himm, Instr.imm]; omega
    have hzero : cmdBits w 7 0 = 0 := by rw [lowByte_eq, himm, Instr.imm]; omega
    exact (formatX0_ok_iff w _ _).2 ⟨hzero, by rw [hidx, Instr.self]⟩
  | wrb r idx v8 =>
    have hv8 := v8.isLt
    have hidx : fieldIdx w = idx := by rw [fieldIdx_eq, himm, Instr.imm]; omega
    have hbyte : fieldV8 w = v8 := BitVec.eq_of_toNat_eq (by
      rw [fieldV8, BitVec.toNat_ofNat, lowByte_eq, himm, Instr.imm]; omega)
    rw [hidx, hbyte]
    rfl
  | _ => exact (formatN_ok_iff w _ _).2 ⟨himm, rfl⟩

/-- The word that R37 writes down for a well-formed instruction is decoded to it. -/
theorem decode_commandWord_of_wellFormed {i : Instr} (h : i.wellFormed = true) :
    decode (commandWord i.opcode i.self i.imm) = .ok i :=
  decode_commandWord i.opcode_lt (i.imm_lt h) fun _ => decode_of_fields

end Sys2Proof.Machine
end

section
/-! SUPPORT. The alignment selector by width case, and MOV (40_align_compare.md rules R43 and R44). -/

namespace Sys2Proof.Machine

/-- Byte `i` of `align_N(v)` is byte `i - (N - M)` of `v`, 0 where there is none (R43). -/
theorem byteAt_align {N i : Nat} (v : List Byte) (h : i < N) : byteAt (align N v) i =
    if N ≤ i + v.length ∧ i + v.length - N < v.length then byteAt v (i + v.length - N) else 0 := by
  rw [align, byteAt_build _ h]
  by_cases hN : N ≤ i + v.length
  · have hidx : (i : Int) - ((N : Int) - (v.length : Int)) = (i + v.length - N : Nat) := by omega
    rw [hidx, byteAtInt_natCast, if_pos ⟨hN, by omega⟩]
  · rw [byteAtInt_neg v (by omega), if_neg fun hc => hN hc.1]

/-- Widening puts zero bytes in front: the number stays (R43). -/
theorem align_of_length_le {N : Nat} {v : List Byte} (h : v.length ≤ N) :
    align N v = List.replicate (N - v.length) 0 ++ v := by
  rw [← zero_eq_replicate]
  refine val_inj (by simp [h]) ?_
  rw [val_align_of_le h, val_append, val_zero, Nat.zero_mul, Nat.zero_add]

/-- What stays of a value without its excess leading bytes has the narrower width. -/
theorem length_drop_excess {N : Nat} {v : List Byte} (h : N ≤ v.length) : (v.drop (v.length - N)).length = N := by
  rw [List.length_drop, Nat.sub_sub_self h]

/-- Narrowing drops leading bytes: the number is wrapped (R43). -/
theorem align_of_le_length {N : Nat} {v : List Byte} (h : N ≤ v.length) : align N v = v.drop (v.length - N) := by
  have hlen := length_drop_excess h
  have hlow := val_lt (v.drop (v.length - N))
  rw [hlen] at hlow
  refine val_inj (by rw [hlen, align_length]) ?_
  rw [val_align, val_take_drop v (v.length - N), hlen, Nat.mul_add_mod_self_right, Nat.mod_eq_of_lt hlow]

/-- Settles O19: byte by byte from the definition, and the width cases by the number. -/
theorem alignmentMatchesLeastSignificantEnds : Obligations.AlignmentMatchesLeastSignificantEnds := by
  refine fun N v => ⟨align_length N v, fun i hi => byteAt_align v hi, align_of_length_le, align_of_le_length, ?_⟩
  rintro rfl
  exact align_self v

/-- Settles O20: MOV writes `align_N` of other, whose bytes stay in place counted from the least significant end. -/
theorem movCopiesOtherAligned : Obligations.MovCopiesOtherAligned := by
  intro r s
  refine ⟨decode_commandWord_of_wellFormed (i := .mov r) rfl, _, exec_eq_result (.mov r) s,
    writesOnly_setReg (align_length _ _), ?self, ?bytes⟩
  case self => simp [State.finish, resultOf, Instr.self]
  case bytes =>
    intro j hj
    simpa [State.finish, resultOf, Instr.self] using lsByte_align _ (s.otherReg r) hj

end Sys2Proof.Machine
end

section
/-! SUPPORT. The comparator byte by byte: what the leading bytes of the wider operand and the aligned bytes say about
the two numbers (40_align_compare.md rules R45 and R46). -/

namespace Sys2Proof.Machine

/-- A nonzero leading byte makes the wider operand the greater number. -/
theorem val_lt_of_leading_byte_ne_zero {w n : List Byte} {i : Nat} (hi : i < w.length - n.length)
    (hne : byteAt w i ≠ 0) : val n < val w := by
  have hlead : val (w.take (w.length - n.length)) ≠ 0 := fun hzero => hne (by
    rw [← byteAt_take hi]
    exact (val_eq_zero_iff_byteAt _).1 hzero i (by simp; omega))
  have hlow := length_drop_excess (N := n.length) (v := w) (by omega)
  calc val n < 256 ^ n.length := val_lt n
    _ ≤ val (w.take (w.length - n.length)) * 256 ^ n.length := Nat.le_mul_of_pos_left _ (Nat.pos_of_ne_zero hlead)
    _ ≤ val w := by rw [val_take_drop w (w.length - n.length), hlow]; exact Nat.le_add_right _ _

/-- Where the first `d` bytes are 0, the number is that of the bytes behind them. -/
theorem val_drop_of_leading_zero {w : List Byte} {d : Nat} (hzero : ∀ i, i < d → byteAt w i = 0) :
    val (w.drop d) = val w := by
  have hlead : val (w.take d) = 0 := (val_eq_zero_iff_byteAt _).2 fun j hj => by
    have hjd : j < d := lt_of_lt_of_le hj (List.length_take_le d w)
    rw [byteAt_take hjd, hzero j hjd]
  rw [val_take_drop w d, hlead, Nat.zero_mul, Nat.zero_add]

/-- Two values of one width are the same exactly when their bytes are (R10(c)). -/
theorem eq_iff_byteAt {v w : List Byte} (hl : v.length = w.length) :
    v = w ↔ ∀ i, i < w.length → byteAt v i = byteAt w i :=
  ⟨fun h _ _ => by rw [h], fun h => eq_of_byteAt hl (hl ▸ h)⟩

theorem eqv_comm (p q : List Byte) : eqv p q = eqv q p := by
  rw [Bool.eq_iff_iff, eqv_iff, eqv_iff, eq_comm]

/-- The verdict for the greater number, and turned round (R46). -/
theorem cmpv_of_val_lt {p q : List Byte} (h : val q < val p) : cmpv p q = .gt ∧ cmpv q p = .lt := by
  rw [cmpv_eq_compare, cmpv_eq_compare]
  exact ⟨Nat.compare_eq_gt.2 h, Nat.compare_eq_lt.2 h⟩

theorem cmpv_of_val_eq {p q : List Byte} (h : val p = val q) : cmpv p q = .eq ∧ cmpv q p = .eq := by
  rw [cmpv_eq_compare, cmpv_eq_compare]
  exact ⟨Nat.compare_eq_eq.2 h, Nat.compare_eq_eq.2 h.symm⟩

/-- Settles O21: equal numbers leave no nonzero leading byte, and behind zero leading bytes the numbers are equal
exactly when the aligned bytes are. -/
theorem equalityComparesAlignedBytes : Obligations.EqualityComparesAlignedBytes := by
  intro w n hle
  have hd := length_drop_excess hle
  refine ⟨?bytes, eqv_comm n w⟩
  simp only [← byteAt_drop w (w.length - n.length)]
  rw [eqv_iff, ← eq_iff_byteAt hd]
  constructor
  · intro heq
    have hzero : ∀ i, i < w.length - n.length → byteAt w i = 0 := fun i hi =>
      by_contra fun hne => (val_lt_of_leading_byte_ne_zero hi hne).ne heq.symm
    exact ⟨hzero, val_inj hd ((val_drop_of_leading_zero hzero).trans heq)⟩
  · rintro ⟨hzero, hdrop⟩
    rw [← val_drop_of_leading_zero hzero, hdrop]

/-- Settles O22: a nonzero leading byte decides the order of the numbers; behind zero leading bytes the first mismatch
of the aligned bytes does, and without one the numbers are equal. -/
theorem orderingIsDecidedMostSignificantFirst : Obligations.OrderingIsDecidedMostSignificantFirst := by
  intro w n hle
  have hd := length_drop_excess hle
  refine ⟨?leading, fun hzero => ?aligned⟩
  case leading =>
    rintro ⟨i, hi, hne⟩
    exact cmpv_of_val_lt (val_lt_of_leading_byte_ne_zero hi hne)
  case aligned =>
    simp only [← byteAt_drop w (w.length - n.length)]
    rw [← eq_iff_byteAt hd]
    have hval := val_drop_of_leading_zero hzero
    refine ⟨fun i hi hbefore => ⟨fun hgt => ?greater, fun hlt => ?less⟩, fun hsame => ?same⟩
    case greater =>
      exact cmpv_of_val_lt (hval ▸ val_lt_of_first_mismatch hd (hd.symm ▸ hi) hbefore hgt)
    case less =>
      have hless := val_lt_of_first_mismatch hd.symm hi (fun j hj => (hbefore j hj).symm) hlt
      exact (cmpv_of_val_lt (hval ▸ hless)).symm
    case same => exact cmpv_of_val_eq (by rw [← hval, hsame])

end Sys2Proof.Machine
end

section
/-! SUPPORT. Commands that only report, and the five comparisons (40_align_compare.md rules R47 to R51). -/

namespace Sys2Proof.Machine

/-- A command whose result leaves self as it was answers that result and writes nothing. -/
theorem exec_reportsOnly {i : Instr} {s : State} {f : Bool} {n : BitVec 24} {d : List Byte}
    (h : resultOf i (s.reg i.self) (s.otherReg i.self) s.din = .ok (s.reg i.self) f n d) :
    ∃ t, exec i s = .next t ∧ ReportsOnly s t { status := .ok, flag := f, val := n, dout := d } := by
  rw [exec_eq_result, h, State.finish_reported]
  exact ⟨_, rfl, reportsOnly_answer s _⟩

/-- Settles O23: each comparison is decoded by its fields, and its result is self unchanged with the comparator's
verdict as the flag. -/
theorem comparisonsReportTheComparator : Obligations.ComparisonsReportTheComparator := by
  intro r s
  refine ⟨⟨decode_commandWord_of_wellFormed (i := .cmpeq r) rfl, exec_reportsOnly rfl⟩,
    ⟨decode_commandWord_of_wellFormed (i := .cmplt r) rfl, exec_reportsOnly ?lt⟩,
    ⟨decode_commandWord_of_wellFormed (i := .cmpgt r) rfl, exec_reportsOnly ?gt⟩,
    ⟨decode_commandWord_of_wellFormed (i := .cmple r) rfl, exec_reportsOnly ?le⟩,
    ⟨decode_commandWord_of_wellFormed (i := .cmpge r) rfl, exec_reportsOnly ?ge⟩⟩
  case lt => rw [resultOf, beq_eq_decide, Instr.self]
  case gt => rw [resultOf, beq_eq_decide, Instr.self]
  case le => rw [resultOf, beq_eq_decide, Instr.self, decide_not]
  case ge => rw [resultOf, beq_eq_decide, Instr.self, decide_not]

end Sys2Proof.Machine
end

section
/-! SUPPORT. Commands that write self, and the shifter byte by byte (41_shift.md rules R53 to R56). -/

namespace Sys2Proof.Machine

/-- A command whose result is a new value of self's width ends with that value in self and the frame `WritesOnly`. -/
theorem exec_writesOnly {i : Instr} {s : State} {v : List Byte}
    (h : resultOf i (s.reg i.self) (s.otherReg i.self) s.din = .ok v false 0 []) (hl : v.length = s.width i.self) :
    ∃ t, exec i s = .next t ∧ WritesOnly i.self s t ∧ t.reg i.self = v := by
  rw [exec_eq_result, h]
  exact ⟨_, rfl, writesOnly_setReg hl, by simp [State.finish]⟩

/-- A read `m` bytes towards the least significant end (R54). -/
theorem byteAtInt_add (v : List Byte) (i m : Nat) :
    byteAtInt v ((i : Int) + (m : Nat)) = if i + m < v.length then byteAt v (i + m) else 0 := by
  rw [← Int.natCast_add, byteAtInt_natCast]
  split
  · rfl
  · rw [byteAt, List.getD_eq_default _ _ (by omega)]

/-- The number of a byte that is read as 0 out of range. -/
theorem toNat_ite_zero (p : Prop) [Decidable p] (b : Byte) : (if p then b else 0).toNat = if p then b.toNat else 0 :=
  apply_ite BitVec.toNat p b 0

/-- Byte `i` of a right shift is the low byte of its shifted window (R53). -/
theorem byteAt_shr_toNat (v : List Byte) (k : Nat) {i : Nat} (h : i < v.length) : (byteAt (shr v k) i).toNat =
    ((if k / 8 + 1 ≤ i then (byteAt v (i - k / 8 - 1)).toNat else 0) * 256 +
      (if k / 8 ≤ i then (byteAt v (i - k / 8)).toNat else 0)) / 2 ^ (k % 8) % 256 := by
  have hleft : byteAtInt v ((i : Int) - (k / 8 : Nat) - 1) =
      if k / 8 + 1 ≤ i then byteAt v (i - k / 8 - 1) else 0 := by
    rw [Int.sub_sub, Nat.sub_sub]
    exact byteAtInt_sub v h (k / 8 + 1)
  rw [shr, byteAt_build _ h]
  simp only [hleft, byteAtInt_sub v h, BitVec.toNat_ofNat, toNat_ite_zero, Nat.mod_mod]

/-- Byte `i` of a left shift is the high byte of its shifted window, kept to 16 bits (R54). -/
theorem byteAt_shl_toNat (v : List Byte) (k : Nat) {i : Nat} (h : i < v.length) : (byteAt (shl v k) i).toNat =
    ((if i + k / 8 < v.length then (byteAt v (i + k / 8)).toNat else 0) * 256 +
      (if i + k / 8 + 1 < v.length then (byteAt v (i + k / 8 + 1)).toNat else 0)) * 2 ^ (k % 8) % 65536 / 256 := by
  have hlow : byteAtInt v ((i : Int) + (k / 8 : Nat) + 1) =
      if i + k / 8 + 1 < v.length then byteAt v (i + k / 8 + 1) else 0 := byteAtInt_add v (i + k / 8) 1
  have hbyte : ∀ n, n % 65536 / 256 % 256 = n % 65536 / 256 := fun n => by omega
  rw [shl, byteAt_build _ h]
  simp only [hlow, byteAtInt_add, BitVec.toNat_ofNat, toNat_ite_zero, hbyte]

/-- Settles O26: SHR and SHL write the shifter's value over self, whose bytes are the bytes of the windows. -/
theorem shiftersTakeWindowsOfAdjacentBytes : Obligations.ShiftersTakeWindowsOfAdjacentBytes := by
  intro r k s
  refine ⟨fun hk => ⟨decode_commandWord_of_wellFormed (i := .shr r k) (decide_eq_true hk),
    decode_commandWord_of_wellFormed (i := .shl r k) (decide_eq_true hk)⟩, ?shr, ?shl⟩
  case shr =>
    obtain ⟨t, hexec, hframe, hself⟩ := exec_writesOnly (i := .shr r k) (s := s) rfl (shr_length _ k)
    exact ⟨t, hexec, hframe, fun i hi => hself ▸ byteAt_shr_toNat (s.reg r) k hi⟩
  case shl =>
    obtain ⟨t, hexec, hframe, hself⟩ := exec_writesOnly (i := .shl r k) (s := s) rfl (shl_length _ k)
    exact ⟨t, hexec, hframe, fun i hi => hself ▸ byteAt_shl_toNat (s.reg r) k hi⟩

end Sys2Proof.Machine
end

section
/-! SUPPORT. The adder byte by byte: the bytes and the carries of the ripple (42_add_sub.md rules R59 to R61). -/

namespace Sys2Proof.Machine

/-- Byte `j` of a sum, counted from the least significant end, is the three-term sum modulo 256 (R59). -/
theorem lsByte_add_toNat (a b : List Byte) {j : Nat} (h : j < a.length) : (lsByte (add a b) j).toNat =
    ((lsByte a j).toNat + (lsByte b j).toNat + (addLow a b j).1) % 256 := by
  rw [add, lsByte_addLow a b h, BitVec.toNat_ofNat, Nat.mod_mod]

/-- The carry out of byte `j` is the true carry of the three-term sum (R60): with a carry into it of at most 1, that
sum is below 512. -/
theorem addLow_carry_succ (a b : List Byte) (j : Nat) : (addLow a b (j + 1)).1 =
    if 256 ≤ (lsByte a j).toNat + (lsByte b j).toNat + (addLow a b j).1 then 1 else 0 := by
  have ha := (lsByte a j).isLt
  have hb := (lsByte b j).isLt
  have hc := addLow_carry_le a b j
  simp only [addLow]
  split <;> omega

/-- Settles O29: ADD writes the sum over self, and its carries are those of the carry loop. -/
theorem addRipplesTheTrueCarry : Obligations.AddRipplesTheTrueCarry := by
  refine ⟨fun r s => ⟨decode_commandWord_of_wellFormed (i := .add r) rfl, ?ripple⟩, by decide⟩
  obtain ⟨t, hexec, hframe, hself⟩ := exec_writesOnly (i := .add r) (s := s) rfl (add_length _ _)
  refine ⟨t, fun j => (addLow (s.reg r) (s.otherReg r) j).1, hexec, hframe, rfl, fun j hj => ⟨?byte, ?carry⟩⟩
  case byte => exact hself ▸ lsByte_add_toNat (s.reg r) (s.otherReg r) hj
  case carry => exact addLow_carry_succ (s.reg r) (s.otherReg r) j

end Sys2Proof.Machine
end

section
/-! SUPPORT. The bitwise operators byte by byte (45_bitwise.md rules R80 to R84). -/

namespace Sys2Proof.Machine

/-- At equal widths a byte-wise operator writes its combination of the old bytes over self, and nothing else. -/
theorem bitwise_writesOnly (op : Byte → Byte → Byte) (r : Reg) {s : State} (h : s.A.length = s.B.length) :
    ∃ t, bitwise op r s = .next t ∧ WritesOnly r s t ∧
      ∀ i, i < s.width r → memRead t r i = op (memRead s r i) (memRead s r.other i) := by
  obtain ⟨hne, -⟩ | ⟨-, hexec⟩ := bitwise_cases op r s
  · exact absurd h hne
  · refine ⟨_, hexec, writesOnly_setReg (build_length _ _), fun i hi => ?_⟩
    rw [memRead_answer, memRead, State.setReg_reg_self, byteAt_build _ hi, State.otherReg_eq, memRead, memRead]

/-- Settles O41: at equal widths the three commands are one byte-wise operator, at unequal ones they do not exist. -/
theorem bitwiseCombinesBytesOfEqualWidths : Obligations.BitwiseCombinesBytesOfEqualWidths := by
  intro r s
  refine ⟨decode_commandWord_of_wellFormed (i := .and r) rfl, decode_commandWord_of_wellFormed (i := .or r) rfl,
    decode_commandWord_of_wellFormed (i := .xor r) rfl, fun heq => ?equal, fun hne i hi => ?unequal⟩
  case equal =>
    exact ⟨bitwise_writesOnly (· &&& ·) r heq, bitwise_writesOnly (· ||| ·) r heq, bitwise_writesOnly (· ^^^ ·) r heq⟩
  case unequal =>
    have hop : i.opcode ∈ [0x28, 0x29, 0x2A] := List.mem_map_of_mem (f := Instr.opcode) hi
    exact ⟨_, exec_of_not_existsIn ((existsIn_eq_false_iff i _ _).2 ⟨hop, hne⟩), reportsOnly_answer s _⟩

/-- Byte `i` of `not_N(v)` is 255 minus byte `i` of `v` (R83). -/
theorem byteAt_notv_toNat {v : List Byte} {i : Nat} (h : i < v.length) :
    (byteAt (notv v) i).toNat = 255 - (byteAt v i).toNat := by
  have hbyte : byteAt (notv v) i = BitVec.ofNat 8 (255 - (byteAt v i).toNat) := by simp [byteAt, notv, h]
  rw [hbyte, BitVec.toNat_ofNat, Nat.mod_eq_of_lt (by omega)]

/-- Complementing twice restores the value, since it restores the width and the number (R83). -/
theorem notv_notv (v : List Byte) : notv (notv v) = v := by
  have hlt := val_lt v
  refine val_inj (by rw [notv_length, notv_length]) ?_
  rw [val_notv, val_notv, notv_length]
  omega

/-- Settles O42: NOT writes the complement over self, and the complement of the complement is the old value. -/
theorem notInvertsEveryByte : Obligations.NotInvertsEveryByte := by
  intro r s
  obtain ⟨t, hexec, hframe, (hself : t.reg r = notv (s.reg r))⟩ :=
    exec_writesOnly (i := .not r) (s := s) rfl (notv_length _)
  obtain ⟨u, hexec', -, hself'⟩ := exec_writesOnly (i := .not r) (s := t) rfl (notv_length _)
  refine ⟨decode_commandWord_of_wellFormed (i := .not r) rfl, t, hexec, hframe, fun i hi => ?bytes, u, hexec', ?twice⟩
  case bytes =>
    rw [memRead, hself]
    exact byteAt_notv_toNat hi
  case twice =>
    calc u.reg r = notv (t.reg r) := hself'
      _ = notv (notv (s.reg r)) := congrArg notv hself
      _ = s.reg r := notv_notv _

end Sys2Proof.Machine
end

section
/-! SUPPORT. The hexadecimal alphabet (46_hex_codec.md rule R85), and the parse one case at a time (rule R86). -/

namespace Sys2Proof.Machine

theorem hexchar_digit {d : Nat} (h : d < 10) : hexchar d = BitVec.ofNat 8 (0x30 + d) := if_pos (by omega)

theorem hexchar_letter (d : Nat) : hexchar (10 + d) = BitVec.ofNat 8 (0x61 + d) := by
  rw [hexchar, if_neg (by omega)]
  congr 1
  omega

/-- The uppercase letters are read as the lowercase ones are, and never written. -/
theorem hexval_uppercase {d : Nat} (h : d < 6) : hexval (BitVec.ofNat 8 (0x41 + d)) = some (10 + d) := by
  interval_cases d <;> rfl

/-- The three ranges of codes that have a value (R85). -/
theorem hexval_isSome_iff (c : Byte) : (hexval c).isSome = true ↔
    (0x30 ≤ c.toNat ∧ c.toNat ≤ 0x39) ∨ (0x61 ≤ c.toNat ∧ c.toNat ≤ 0x66) ∨ (0x41 ≤ c.toNat ∧ c.toNat ≤ 0x46) := by
  rw [hexval]
  split_ifs with hdigit hlower hupper
  · simp [hdigit]
  · simp [hlower]
  · simp [hupper]
  · simp only [Option.isSome_none, Bool.false_eq_true, false_iff]
    omega

/-- Settles O43: a digit and a lowercase letter are output characters, and the alphabet reads every output character
back; the uppercase letters are six codes more. -/
theorem hexAlphabetIsTwentyTwoCharacters : Obligations.HexAlphabetIsTwentyTwoCharacters := by
  refine ⟨fun d hd => ⟨?digit, hexchar_digit hd⟩, fun d hd => ⟨?lower, hexval_uppercase hd, hexchar_letter d⟩,
    hexval_isSome_iff⟩
  case digit => exact hexchar_digit hd ▸ hexval_hexchar (by omega)
  case lower => exact hexchar_letter d ▸ hexval_hexchar (by omega)

variable {N : Nat} {din : List Byte}

theorem byteAt_eq_getElem {v : List Byte} {i : Nat} (h : i < v.length) : byteAt v i = v[i] :=
  List.getD_eq_getElem v 0 h

/-- No character is found outside the alphabet exactly when every position holds one of the alphabet. -/
theorem find_badCharacter_eq_none_iff : (din.find? fun c => (hexval c).isNone) = none ↔
    ∀ j, j < din.length → hexval (byteAt din j) ≠ none := by
  rw [List.find?_eq_none, List.forall_mem_iff_getElem]
  exact forall₂_congr fun j hj => by simp [byteAt_eq_getElem hj]

/-- The character found outside the alphabet is the first one in string order. -/
theorem find_badCharacter_of_first {j : Nat} (hj : j < din.length) (hbad : hexval (byteAt din j) = none)
    (hbefore : ∀ k, k < j → hexval (byteAt din k) ≠ none) :
    (din.find? fun c => (hexval c).isNone) = some (byteAt din j) := by
  refine List.find?_eq_some_iff_getElem.2 ⟨by simp [hbad], j, hj, (byteAt_eq_getElem hj).symm, fun k hk => ?_⟩
  have hgood := hbefore k hk
  rw [byteAt_eq_getElem (hk.trans hj)] at hgood
  simpa [Option.isSome_iff_ne_none] using hgood

theorem parseHex_of_length_ne (h : din.length ≠ 2 * N) : parseHex N din = .error (.parseLength din.length) := if_pos h

theorem parseHex_of_badCharacter {c : Byte} (hlen : din.length = 2 * N)
    (hfind : (din.find? fun c => (hexval c).isNone) = some c) : parseHex N din = .error (.parseCharacter c) := by
  rw [parseHex, if_neg (not_not.2 hlen), hfind]

/-- A pair of digits makes one byte, most significant nibble first. -/
theorem digitPair_toNat {j k h l : Nat} (hh : hexval (byteAt din j) = some h) (hl : hexval (byteAt din k) = some l) :
    (BitVec.ofNat 8 (digitAt din j * 16 + digitAt din k)).toNat = h * 16 + l := by
  have hhlt := hexval_lt hh
  have hllt := hexval_lt hl
  rw [digitAt, digitAt, hh, hl, Option.getD_some, Option.getD_some, BitVec.toNat_ofNat]
  exact Nat.mod_eq_of_lt (by omega)

/-- A string of the right length over the alphabet is parsed to the value of its pairs. -/
theorem parseHex_of_alphabet (hlen : din.length = 2 * N)
    (hfind : (din.find? fun c => (hexval c).isNone) = none) :
    ∃ v, parseHex N din = .ok v ∧ v.length = N ∧ ∀ i, i < N → ∀ h l, hexval (byteAt din (2 * i)) = some h →
      hexval (byteAt din (2 * i + 1)) = some l → (byteAt v i).toNat = h * 16 + l := by
  refine ⟨_, by rw [parseHex, if_neg (not_not.2 hlen), hfind], build_length _ _, fun i hi h l hh hl => ?_⟩
  rw [byteAt_build _ hi, digitPair_toNat hh hl]

end Sys2Proof.Machine
end

section
/-! SUPPORT. Commands that end with an error, and the three commands of the hex codec (46_hex_codec.md rules R86 to
R89). -/

namespace Sys2Proof.Machine

/-- A command whose result is an error answers it and changes nothing else (R99). -/
theorem exec_raises {i : Instr} {s : State} {e : CmdError}
    (h : resultOf i (s.reg i.self) (s.otherReg i.self) s.din = .error e) :
    exec i s = .next (s.answer e.response) := by rw [exec_eq_result, h, State.finish]

/-- HEXIN of a string that is not parsed answers what is wrong with it. -/
theorem exec_hexin_of_error {r : Reg} {s : State} {e : CmdError} (h : parseHex (s.width r) s.din = .error e) :
    exec (.hexin r) s = .next (s.answer e.response) := exec_raises (by rw [resultOf, Instr.self, h])

/-- HEXIN of a string that is parsed writes its value over self. -/
theorem exec_hexin_of_ok {r : Reg} {s : State} {v : List Byte} (h : parseHex (s.width r) s.din = .ok v) :
    ∃ t, exec (.hexin r) s = .next t ∧ WritesOnly r s t ∧ t.reg r = v :=
  exec_writesOnly (i := .hexin r) (by rw [resultOf, Instr.self, h]) (parseHex_ok_length h)

/-- Settles O44: the cases are those of the parse, a wrong length, a first bad character, or the value of the pairs. -/
theorem hexinParsesOrReportsWhatIsWrong : Obligations.HexinParsesOrReportsWhatIsWrong := by
  refine fun r s => ⟨decode_commandWord_of_wellFormed (i := .hexin r) rfl, fun hne => ?length,
    fun hlen j hj hbad hbefore => ?character, fun hlen hgood => ?parsed⟩
  case length => exact ⟨_, exec_hexin_of_error (parseHex_of_length_ne hne), reportsOnly_answer s _⟩
  case character =>
    have hfind := find_badCharacter_of_first (hlen ▸ hj) hbad hbefore
    rw [← BitVec.ofNat_toNat]
    exact ⟨_, exec_hexin_of_error (parseHex_of_badCharacter hlen hfind), reportsOnly_answer s _⟩
  case parsed =>
    obtain ⟨v, hparse, -, hbytes⟩ := parseHex_of_alphabet hlen (find_badCharacter_eq_none_iff.2 (hlen ▸ hgood))
    obtain ⟨t, hexec, hframe, hself⟩ := exec_hexin_of_ok hparse
    refine ⟨t, hexec, hframe, ?_⟩
    rw [← hself] at hbytes
    exact hbytes

/-- Settles O45: both commands report the serialized form of self, whose characters are known by position. -/
theorem hexoutSerializesEveryByte : Obligations.HexoutSerializesEveryByte := by
  refine fun r s => ⟨decode_commandWord_of_wellFormed (i := .hexout r) rfl,
    decode_commandWord_of_wellFormed (i := .hexoutx r) rfl, toHex (s.reg r), toHex_length _,
    fun i hi => byteAt_toHex (s.reg r) hi, ?hexout, ?hexoutx⟩
  case hexout => exact exec_reportsOnly (i := .hexout r) rfl
  case hexoutx => exact exec_reportsOnly (i := .hexoutx r) rfl

/-- The parse reads back the serialized form: byte by byte, the two digits are the byte's quotient and remainder
by 16 (R89). -/
theorem parseHex_toHex (v : List Byte) : parseHex v.length (toHex v) = .ok v := by
  obtain ⟨w, hparse, hlen, hbytes⟩ := parseHex_of_alphabet (toHex_length v) (toHex_alphabet v)
  rw [hparse, eq_of_byteAt hlen fun i hi => ?_]
  have hi : i < v.length := hlen ▸ hi
  obtain ⟨hhigh, hlow⟩ := byteAt_toHex v hi
  have hb := (byteAt v i).isLt
  have hbyte := hbytes i hi _ _ (hhigh ▸ hexval_hexchar (by omega)) (hlow ▸ hexval_hexchar (by omega))
  exact BitVec.eq_of_toNat_eq (by omega)

/-- HEXIN of a string of wrong length, or with a character outside the alphabet, answers ParseError: the parse can
only succeed where neither is so. -/
theorem exec_hexin_rejects {r : Reg} {s : State}
    (h : s.din.length ≠ 2 * s.width r ∨ ∃ c ∈ s.din, hexval c = none) :
    ∃ t a, exec (.hexin r) s = .next t ∧ t.resp = some a ∧ a.status = .parseError := by
  obtain ⟨-, herror⟩ | ⟨-, c, -, herror⟩ | ⟨hlen, hfind, -⟩ := parseHex_cases (s.width r) s.din
  · exact ⟨_, _, exec_hexin_of_error herror, rfl, rfl⟩
  · exact ⟨_, _, exec_hexin_of_error herror, rfl, rfl⟩
  · obtain hne | ⟨c, hc, hbad⟩ := h
    · exact absurd hlen hne
    · exact absurd (Option.isNone_iff_eq_none.2 hbad) (List.find?_eq_none.1 hfind c hc)

/-- Settles O46: HEXOUT reports the serialized form, which HEXIN parses back; the `0x` marker makes it too long. -/
theorem hexRoundTrip : Obligations.HexRoundTrip := by
  refine ⟨fun r s => ?law, fun r s => exec_hexin_rejects⟩
  obtain ⟨t, hexec, hreport⟩ := exec_reportsOnly (i := .hexout r) (s := s) rfl
  refine ⟨t, _, hexec, hreport.answers.resp, fun u hu => ⟨?readBack, exec_hexin_rejects (Or.inl ?marker)⟩⟩
  case readBack =>
    have hparse : parseHex (u.width r) (toHex (s.reg r)) = .ok (s.reg r) := hu ▸ parseHex_toHex (s.reg r)
    obtain ⟨u', hexec', hframe, hself⟩ := exec_hexin_of_ok (s := { u with din := toHex (s.reg r) }) hparse
    exact ⟨u', hexec', hself, hframe.keepsOther⟩
  case marker =>
    show (toHex (s.reg r)).length + 2 ≠ 2 * u.width r
    rw [toHex_length, hu]
    exact (Nat.lt_add_of_pos_right Nat.two_pos).ne'

end Sys2Proof.Machine
end

section
/-! SUPPORT. The bit accessor, rank, default construction, raw byte access and bit materialization (47_access.md rules
R90 to R97). -/

namespace Sys2Proof.Machine

/-- A command whose result is a RangeError answers the index or position and writes nothing (R98, R99). -/
theorem exec_rangeError {i : Instr} {s : State} {n : Nat}
    (h : resultOf i (s.reg i.self) (s.otherReg i.self) s.din = .error (.range n)) :
    ∃ t, exec i s = .next t ∧
      ReportsOnly s t { status := .rangeError, flag := false, val := BitVec.ofNat 24 n, dout := [] } :=
  ⟨_, exec_raises h, reportsOnly_answer s _⟩

/-- A bit position inside the value is a bit of one of its bytes (R90). -/
theorem bit_eq_byteAt (v : List Byte) {p : Nat} (h : p < 8 * v.length) :
    bit v p = decide ((byteAt v (v.length - 1 - p / 8)).toNat / 2 ^ (p % 8) % 2 = 1) := by
  rw [bit, lsByte_eq_byteAt v (by omega), beq_eq_decide]

/-- Settles O47: the position is checked against the width first, and inside it the bit is one of a byte. -/
theorem getbitReadsOneBit : Obligations.GetbitReadsOneBit := by
  refine fun r pos s => ⟨fun hpos => decode_commandWord_of_wellFormed (i := .getbit r pos) (decide_eq_true hpos),
    fun hout => exec_rangeError (i := .getbit r pos) (if_pos hout), fun hin => ?bit⟩
  case bit =>
    rw [memRead, ← bit_eq_byteAt (s.reg r) hin]
    exact exec_reportsOnly (i := .getbit r pos) (if_neg hin.not_ge)

/-- The rank of a value without a set bit (R92). -/
theorem rank_eq_zero {v : List Byte} (h : ∀ p, p < 8 * v.length → bit v p = false) : rank v = 0 :=
  Nat.le_zero.1 ((rankBelow_le_iff v _ 0).2 fun p _ hp => h p hp)

/-- The rank of a register of an instance fits the field `val` (R91). -/
theorem rank_toNat {v : List Byte} (h : Memory.wf v = true) : (BitVec.ofNat 24 (rank v)).toNat = rank v := by
  obtain ⟨-, hwidth⟩ := (Memory.wf_iff v).1 h
  have hrank := rank_le_width v
  rw [BitVec.toNat_ofNat, Nat.mod_eq_of_lt (by omega)]

/-- Settles O48: RANK reports the rank, which fits `val` and is 0 or one more than the highest set position. -/
theorem rankIsTheHighestSetBit : Obligations.RankIsTheHighestSetBit := by
  refine fun r s => ⟨decode_commandWord_of_wellFormed (i := .rank r) rfl, fun hwf => ?report⟩
  obtain ⟨t, hexec, hreport⟩ := exec_reportsOnly (i := .rank r) (s := s) rfl
  refine ⟨t, _, hexec, hreport, fun hzero => ?zero, fun p _ hset habove => ?highest⟩
  case zero => exact (rank_toNat hwf).trans (rank_eq_zero hzero)
  case highest => exact (rank_toNat hwf).trans (rank_eq_succ hset habove)

/-- Settles O49: CLR writes the zero value of self's width, which is what reset writes (R17). -/
theorem clrGivesTheResetContent : Obligations.ClrGivesTheResetContent := by
  intro r s
  obtain ⟨t, hexec, hframe, (hself : t.reg r = zero (s.width r))⟩ :=
    exec_writesOnly (i := .clr r) (s := s) rfl (zero_length _)
  refine ⟨decode_commandWord_of_wellFormed (i := .clr r) rfl, t, hexec, hframe, hself, ?reset, fun i hi => ?bytes⟩
  case reset =>
    rw [hself]
    cases r with
    | A => exact (State.resetOf_A _ _).symm
    | B => exact (State.resetOf_B _ _).symm
  case bytes => rw [memRead, hself, byteAt_zero hi]

/-- Settles O50: the index is checked against the width first, and inside it `val` is the byte, zero-extended. -/
theorem rdbReadsOneByte : Obligations.RdbReadsOneByte := by
  refine fun r idx s => ⟨fun hidx => decode_commandWord_of_wellFormed (i := .rdb r idx) (decide_eq_true hidx),
    fun hin => ?byte, fun hout => exec_rangeError (i := .rdb r idx) (if_pos hout)⟩
  case byte =>
    rw [memRead, ← BitVec.ofNat_toNat]
    exact exec_reportsOnly (i := .rdb r idx) (if_neg hin.not_ge)

/-- WRB at an index of self ends with the byte written and OK answered (R95). -/
theorem exec_wrb_of_lt {r : Reg} {idx : Nat} {s : State} (v8 : Byte) (h : idx < s.width r) :
    exec (.wrb r idx v8) s = .next ((memWrite s r idx v8).answer okResponse) := if_neg h.not_ge

/-- Settles O51: inside the width WRB is the one-byte write of R21, which leaves every other byte of both registers
as it was. -/
theorem wrbWritesOneByte : Obligations.WrbWritesOneByte := by
  refine fun r idx v8 s => ⟨fun hidx => decode_commandWord_of_wellFormed (i := .wrb r idx v8) (decide_eq_true hidx),
    fun hin => ⟨_, exec_wrb_of_lt v8 hin, writesOnly_setReg List.length_set, ?written, fun q j hne => ?kept⟩,
    fun hout => exec_rangeError (i := .wrb r idx v8) (if_pos hout)⟩
  case written => rw [memRead_answer, memRead_memWrite_same s r hin]
  case kept =>
    have hother : q ≠ r ∨ j ≠ idx := not_and_or.1 fun ⟨hq, hj⟩ => hne (Prod.ext hq hj)
    rw [memRead_answer, memRead_memWrite_other s r v8 hother]

/-- Settles O52: DUMP reports self as it is, and BITS the sequence built from its bits. -/
theorem dumpAndBitsGiveTheWholeValue : Obligations.DumpAndBitsGiveTheWholeValue := by
  intro r s
  obtain ⟨t, hdump, hdumped⟩ := exec_reportsOnly (i := .dump r) (s := s) rfl
  obtain ⟨u, hbits, hreported⟩ := exec_reportsOnly (i := .bits r) (s := s) rfl
  exact ⟨decode_commandWord_of_wellFormed (i := .dump r) rfl, decode_commandWord_of_wellFormed (i := .bits r) rfl,
    ⟨t, _, hdump, hdumped, rfl, fun _ _ => rfl⟩,
    ⟨u, _, hbits, hreported, build_length _ _, fun _ => byteAt_build _⟩⟩

end Sys2Proof.Machine
end

section
/-! SUPPORT. The error table of 60_exceptions.md: the errors are those of R98, they leave nothing behind (R99), and
DivideByZeroError is raised for the zero divisor only (R102). -/

namespace Sys2Proof.Machine

/-- The error response a result ends the command with, none for a success. -/
def Result.errorResponse : Result → Option Response
  | .error e => some e.response
  | .ok _ _ _ _ => none

theorem Result.errorResponse_ite (p : Prop) [Decidable p] (e : CmdError) (v : List Byte) (f : Bool) (n : BitVec 24)
    (d : List Byte) :
    (if p then Result.error e else .ok v f n d).errorResponse = if p then some e.response else none := by
  split <;> rfl

/-- Two registers differ in width whichever of them is self (R84). -/
theorem State.width_ne_other_iff (s : State) (r : Reg) :
    (s.reg r).length ≠ (s.otherReg r).length ↔ s.A.length ≠ s.B.length := by
  cases r with
  | A => exact Iff.rfl
  | B => exact ne_comm

/-- The rows of HEXIN are the cases of the parse: the length first, then the first character outside the alphabet. -/
theorem errorIn_hexin (r : Reg) (s : State) :
    (Instr.hexin r).errorIn s = (resultOf (.hexin r) (s.reg r) (s.otherReg r) s.din).errorResponse := by
  rw [Instr.errorIn, resultOf, List.head?_filter]
  obtain ⟨hne, hparse⟩ | ⟨hlen, c, hfind, hparse⟩ | ⟨hlen, hfind, hparse⟩ := parseHex_cases (s.width r) s.din
  · rw [if_pos hne, hparse]
    rfl
  · rw [if_neg (not_not.2 hlen), hfind, hparse, Option.map_some, ← BitVec.ofNat_toNat]
    rfl
  · rw [if_neg (not_not.2 hlen), hfind, hparse]
    rfl

/-- The table of R98 gives a decoded command in a state the error its result is. -/
theorem errorIn_eq_result (i : Instr) (s : State) :
    i.errorIn s = (resultOf i (s.reg i.self) (s.otherReg i.self) s.din).errorResponse := by
  cases i with
  | hexin r => exact errorIn_hexin r s
  | div r | mod r =>
    simp only [Instr.errorIn, resultOf, Result.errorResponse_ite, val_eq_zero_iff]
    rfl
  | and r | or r | xor r =>
    simp only [Instr.errorIn, resultOf, Result.errorResponse_ite, State.width_ne_other_iff]
    rfl
  | getbit r pos | rdb r idx | wrb r idx v8 =>
    simp only [Instr.errorIn, resultOf, Result.errorResponse_ite]
    rfl
  | _ => rfl

/-- A result is answered with its error response where it is an error, and with status OK where it is none. -/
theorem State.finish_answers (s : State) (r : Reg) (x : Result) :
    ∃ a, (s.finish r x).resp = some a ∧ (∀ e, x.errorResponse = some e → a = e) ∧
      (x.errorResponse = none → a.status = .ok) := by
  cases x with
  | error e => exact ⟨e.response, rfl, fun _ => Option.some.inj, nofun⟩
  | ok v f n d => exact ⟨okResponse f n d, rfl, nofun, fun _ => rfl⟩

/-- Every decoded command answers the error of the table where it has one, and status OK elsewhere (R98). -/
theorem exec_answers_errorIn (i : Instr) (s : State) :
    ∃ t a, exec i s = .next t ∧ t.resp = some a ∧ (∀ e, i.errorIn s = some e → a = e) ∧
      (i.errorIn s = none → a.status = .ok) := by
  rw [errorIn_eq_result]
  obtain ⟨a, hanswer⟩ := s.finish_answers i.self (resultOf i (s.reg i.self) (s.otherReg i.self) s.din)
  exact ⟨_, a, exec_eq_result i s, hanswer⟩

/-- Settles O17: a refused word is answered without being run, and the error of a decoded command is that of the
table. -/
theorem errorsAreThoseOfTheTable : Obligations.ErrorsAreThoseOfTheTable :=
  ⟨fun s _ _ _ hp hd => ⟨_, step_of_illegal s hp hd, reportsOnly_answer _ _⟩, exec_answers_errorIn,
    rfl, rfl, rfl, rfl, rfl⟩

/-- A command that ends with a status other than OK has only answered an error of R98. -/
theorem Ends.raised_of_status_ne_ok {r : Reg} {s t : State} {a : Response} (h : Ends r s t) (hresp : t.resp = some a)
    (hstatus : a.status ≠ .ok) : ∃ e : CmdError, a = e.response ∧ t = s.answer e.response := by
  cases h with
  | raised e => exact ⟨e, (Option.some.inj hresp).symm, rfl⟩
  | responded v hv f n d =>
    cases hresp
    exact absurd rfl hstatus

/-- A response given before is replaced by the one a command ends with (R19). -/
theorem State.finish_answer (s : State) (a : Response) (r : Reg) (x : Result) :
    (s.answer a).finish r x = s.finish r x := by
  cases x with
  | error e => rfl
  | ok v f n d => cases r <;> rfl

/-- No command reads the response given before it. -/
theorem exec_answer (i : Instr) (s : State) (a : Response) : exec i (s.answer a) = exec i s := by
  rw [exec_eq_result, exec_eq_result, State.finish_answer, State.answer_reg, State.answer_otherReg, State.answer_din]

/-- A step on a command reaches the same state whatever characters came with the command before it and whatever was
answered to that one (R99, R108). -/
theorem step_answer (s : State) (d : Command) (ds : List Command) (din : List Byte) (a : Response) :
    step (({ s with port := d :: ds, din := din } : State).answer a) = step { s with port := d :: ds } := by
  cases hd : decode d.word with
  | error e => rw [step_of_illegal _ rfl hd, step_of_illegal _ rfl hd]; rfl
  | ok i =>
    rw [step_of_decode _ rfl hd, step_of_decode _ rfl hd]
    exact exec_answer i { s with port := ds, din := d.din } a

/-- Settles O18: a step with another status than OK has ended with an error of R98, whose response is the only
change, and the next step reads neither it nor the failed command's characters. -/
theorem errorsWriteNothingAndLeaveNoTrace : Obligations.ErrorsWriteNothingAndLeaveNoTrace := by
  intro s t c cs a hp hstep hresp hstatus
  obtain ⟨t', ht', ⟨hidle, -⟩ | ⟨c', cs', hp', r, hends⟩⟩ := step_ends s
  · exact absurd (hp.symm.trans hidle) (List.cons_ne_nil c cs)
  cases hstep.symm.trans ht'
  cases hp.symm.trans hp'
  obtain ⟨e, rfl, rfl⟩ := hends.raised_of_status_ne_ok hresp hstatus
  refine ⟨reportsOnly_answer _ _, e.response_dout, ⟨e, rfl⟩, ?next⟩
  case next =>
    rintro d ds rfl
    obtain ⟨u, hu, -⟩ := step_ends { s with port := d :: ds }
    exact ⟨u, (step_answer s d ds c.din e.response).trans hu, hu⟩

/-- A command that divides by zero answers DivideByZeroError and writes nothing (R98, R99). -/
theorem exec_divideByZeroError {i : Instr} {s : State}
    (h : resultOf i (s.reg i.self) (s.otherReg i.self) s.din = .error .divideByZero) :
    ∃ t, exec i s = .next t ∧
      ReportsOnly s t { status := .divideByZeroError, flag := false, val := 0, dout := [] } :=
  ⟨_, exec_raises h, reportsOnly_answer s _⟩

/-- A command whose result is a success answers status OK. -/
theorem exec_status_ok {i : Instr} {s : State} {v : List Byte} {f : Bool} {n : BitVec 24} {d : List Byte}
    (h : resultOf i (s.reg i.self) (s.otherReg i.self) s.din = .ok v f n d) :
    ∃ t a, exec i s = .next t ∧ t.resp = some a ∧ a.status = .ok :=
  ⟨_, okResponse f n d, exec_eq_result i s, by rw [h]; rfl, rfl⟩

/-- Settles O36: both commands raise exactly where the number of other is 0, and it is 0 exactly where every byte is. -/
theorem divideByZeroForAnyDividend : Obligations.DivideByZeroForAnyDividend := by
  refine fun r s => ⟨fun hbytes => ?zero, fun j hj hbyte => ?nonzero⟩
  case zero =>
    have hval : val (s.otherReg r) = 0 := (val_eq_zero_iff_byteAt _).2 hbytes
    exact ⟨exec_divideByZeroError (i := .div r) (if_pos hval), exec_divideByZeroError (i := .mod r) (if_pos hval)⟩
  case nonzero =>
    have hval : val (s.otherReg r) ≠ 0 := fun h => hbyte ((val_eq_zero_iff_byteAt _).1 h j hj)
    exact ⟨exec_status_ok (i := .div r) (if_neg hval), exec_status_ok (i := .mod r) (if_neg hval)⟩

end Sys2Proof.Machine
end

section
/-! SUPPORT. What every step keeps: the widths of the registers, and the form of a state of an instance (10_state.md
rule R10). -/

namespace Sys2Proof.Machine

theorem State.wf_iff (s : State) : s.wf = true ↔ Memory.wf s.A = true ∧ Memory.wf s.B = true ∧
    s.din.length ≤ Config.maxDin ∧ ∀ c ∈ s.port, c.din.length ≤ Config.maxDin := by
  simp [State.wf, and_assoc]

/-- The form depends on the widths and on the characters to come only. -/
theorem State.wf_congr {s t : State} (hw : SameWidths s t) (hport : t.port = s.port) (hdin : t.din = s.din) :
    t.wf = s.wf := by
  obtain ⟨hA, hB⟩ := hw
  rw [State.wf, State.wf, Memory.wf_of_length hA, Memory.wf_of_length hB, hport, hdin]

/-- A command taken from the port brings characters that the interface allows. -/
theorem State.wf_takeCommand {s : State} {c : Command} {cs : List Command} (hp : s.port = c :: cs)
    (h : s.wf = true) : ({ s with port := cs, din := c.din } : State).wf = true := by
  obtain ⟨hA, hB, -, hport⟩ := s.wf_iff.1 h
  rw [hp, List.forall_mem_cons] at hport
  exact (State.wf_iff _).2 ⟨hA, hB, hport⟩

/-- What a step that answers `t` has done: nothing, or taken a command that ended in `t`. -/
theorem step_inv {s t : State} (h : step s = .next t) : (s.port = [] ∧ t = s) ∨
    ∃ c cs, s.port = c :: cs ∧ ∃ r, Ends r { s with port := cs, din := c.din } t := by
  obtain ⟨u, hu, hends⟩ := step_ends s
  cases h.symm.trans hu
  exact hends

/-- Settles O3: the idle step changes nothing, and a command keeps the widths and leaves the port it was taken from. -/
theorem everyStepKeepsTheInstance : Obligations.EveryStepKeepsTheInstance := by
  intro s t hstep
  obtain ⟨-, rfl⟩ | ⟨c, cs, hp, r, hends⟩ := step_inv hstep
  · exact ⟨⟨rfl, rfl⟩, id⟩
  · refine ⟨hends.sameWidths, fun hwf => ?_⟩
    rw [State.wf_congr hends.sameWidths hends.port hends.din]
    exact State.wf_takeCommand hp hwf

end Sys2Proof.Machine
end

section
/-! SUPPORT. The round trip of decoder and encoder: a word and a well-formed instruction determine each other through
the three fields (30_encoding.md rules R32 to R34). -/

namespace Sys2Proof.Machine

/-- Settles O12: the fields of the encoded word are those of the instruction, and a word is decoded by its fields. -/
theorem decodingAnEncodedCommandGivesItBack : Obligations.DecodingAnEncodedCommandGivesItBack :=
  fun _ h => decode_of_fields (fieldSelf_encode h) (fieldOp_encode h) (fieldImm_encode h)

theorem fieldImm_lt (w : Word) : fieldImm w < 16777216 := Nat.mod_lt _ (by norm_num)

/-- The converse of `Instr.imm_lt`: the operands fit their fields where `imm24` fits. -/
theorem Instr.wellFormed_of_imm_lt {i : Instr} (h : i.imm < 16777216) : i.wellFormed = true := by
  cases i with
  | shr r k | shl r k | getbit r k => exact decide_eq_true h
  | rdb r idx =>
    rw [Instr.imm] at h
    exact decide_eq_true (by omega)
  | wrb r idx v8 =>
    rw [Instr.imm] at h
    exact decide_eq_true (by omega)
  | _ => rfl

/-- Settles O13: the instruction has the fields of the word, so its operands fit them and its encoding has the same
fields again. -/
theorem everyAcceptedWordIsTheEncodingOfItsCommand : Obligations.EveryAcceptedWordIsTheEncodingOfItsCommand := by
  intro w i h
  obtain ⟨hself, hop, himm⟩ := fields_of_decode h
  have hwf := Instr.wellFormed_of_imm_lt (himm ▸ fieldImm_lt w)
  refine ⟨hwf, BitVec.eq_of_toNat_eq ?_⟩
  rw [toNat_encode hwf, toNat_eq_fields w, hself, hop, himm]

/-- Settles O14: the decoder evaluated on the words of R41 and on a word of each illegal case. -/
theorem workedEncodingsDecode : Obligations.WorkedEncodingsDecode := by
  unfold Obligations.WorkedEncodingsDecode
  decide

end Sys2Proof.Machine
end

section
/-! SUPPORT. Steps and runs over the port: one command a step, to the end of the port (20_memory.md rule R28,
70_reset_and_hazards.md rules R118 and R119). -/

namespace Sys2Proof.Machine

theorem Ends.answered {r : Reg} {s t : State} (h : Ends r s t) : ∃ a, t.resp = some a := by
  cases h with
  | raised e => exact ⟨_, rfl⟩
  | responded v hv f n d => exact ⟨_, rfl⟩

/-- A step with a command on the port ends that command, whatever its word is. -/
theorem step_of_cons {s : State} {c : Command} {cs : List Command} (hp : s.port = c :: cs) :
    ∃ t r, step s = .next t ∧ Ends r { s with port := cs, din := c.din } t := by
  obtain ⟨t, hstep, ⟨hidle, -⟩ | ⟨c', cs', hp', r, hends⟩⟩ := step_ends s
  · exact absurd (hp.symm.trans hidle) (List.cons_ne_nil c cs)
  · cases hp.symm.trans hp'
    exact ⟨t, r, hstep, hends⟩

/-- Settles O5: the command taken is ended with a response, and the idle step changes nothing. -/
theorem oneStepAnswersOneCommand : Obligations.OneStepAnswersOneCommand := by
  refine ⟨fun s c cs hp => ?_, step_idle⟩
  obtain ⟨t, r, hstep, hends⟩ := step_of_cons hp
  obtain ⟨a, ha⟩ := hends.answered
  exact ⟨t, a, hstep, ha, hends.port, hends.din⟩

/-- The host's placing of a word on an empty port makes it the only command, with no characters. -/
theorem withFetchWord_port {s : State} (w : Word) (h : s.port = []) :
    (s.withFetchWord 32 w.toNat).port = [{ word := w, din := [] }] := by
  rw [State.withFetchWord, Nat.mod_eq_of_lt w.isLt, BitVec.ofNat_toNat, BitVec.setWidth_eq, State.withNextWord, h]
  rfl

/-- Settles O6: a word taken from the port is run as it decodes, and a word placed on the empty port is taken. -/
theorem stepRunsTheDecodedCommand : Obligations.StepRunsTheDecodedCommand :=
  ⟨fun s _ _ _ hp hd => step_of_decode s hp hd,
    fun _ w _ hd hp => step_of_decode _ (withFetchWord_port w hp) hd⟩

theorem SameWidths.trans {s t u : State} (h : SameWidths s t) (h' : SameWidths t u) : SameWidths s u :=
  ⟨h'.1.trans h.1, h'.2.trans h.2⟩

/-- As many steps as there are commands empty the port; a response, once given, is never taken away. -/
theorem run_port_length (s : State) : ∃ t, Host.Core.run Sys2Proof.core s.port.length s = .next t ∧ t.port = [] ∧
    ((s.port ≠ [] ∨ ∃ a, s.resp = some a) → ∃ a, t.resp = some a) ∧ SameWidths s t := by
  generalize hp : s.port = cs
  induction cs generalizing s with
  | nil => exact ⟨s, rfl, hp, fun h => h.resolve_left fun hne => hne rfl, rfl, rfl⟩
  | cons c cs ih =>
    obtain ⟨u, r, hstep, hends⟩ := step_of_cons hp
    obtain ⟨t, hrun, hport, hresp, hwidths⟩ := ih u hends.port
    exact ⟨t, (run_succ hstep).trans hrun, hport, fun _ => hresp (Or.inr hends.answered),
      hends.sameWidths.trans hwidths⟩

/-- Settles O4: the run over the port empties it, and the steps beyond it are idle. -/
theorem runOverThePortEndsIdleAndStaysThere : Obligations.RunOverThePortEndsIdleAndStaysThere := by
  intro s
  obtain ⟨t, hrun, hport, hresp, hwidths⟩ := run_port_length s
  refine ⟨t, hrun, hport, fun hne => hresp (Or.inl hne), hwidths, fun n hn => ?_⟩
  rw [← Nat.add_sub_of_le hn, run_add hrun, run_idle hport]

end Sys2Proof.Machine
end

section
/-! SUPPORT. What a command does not depend on, and what it leaves unchanged: the characters (30_encoding.md rule R40),
the register it does not read, the bytes it does not store to (10_state.md rule R18), the names of the registers
(rule R33). -/

namespace Sys2Proof.Machine

/-- Settles O8: the result of a command other than HEXIN is the same for other characters. -/
theorem charactersReachHexinOnly : Obligations.CharactersReachHexinOnly :=
  fun _ s d h => exec_congr_of_result (t := { s with din := d }) rfl rfl (resultOf_din h _ _ s.din d)

/-- What self holds after a command, and the response, depend on self before it and on its result only. -/
theorem State.finish_congr_self {s t : State} {r : Reg} (h : s.reg r = t.reg r) (x : Result) :
    (s.finish r x).reg r = (t.finish r x).reg r ∧ (s.finish r x).resp = (t.finish r x).resp := by
  cases x <;> simp [State.finish, h]

/-- Settles O9: the result of a command that does not read other is a function of self and the characters. -/
theorem unreadOtherHasNoEffect : Obligations.UnreadOtherHasNoEffect := by
  intro i s s' hreads hself hdin
  have hres : resultOf i (s'.reg i.self) (s'.otherReg i.self) s'.din
      = resultOf i (s.reg i.self) (s.otherReg i.self) s.din := by
    rw [← hself, ← hdin]
    exact resultOf_other hreads _ _ _ _
  refine ⟨_, _, exec_eq_result i s, exec_eq_result i s', ?_⟩
  rw [hres]
  exact State.finish_congr_self hself _

/-- Two values of one width read the same, 0, beyond it. -/
theorem byteAt_eq_beyond {v w : List Byte} (hl : v.length = w.length) {j : Nat} (h : w.length ≤ j) :
    byteAt v j = byteAt w j := by
  rw [byteAt, byteAt, List.getD_eq_default v 0 (hl ▸ h), List.getD_eq_default w 0 h]

/-- A success leaves every byte of self that the command does not store to (R18). -/
theorem byteAt_resultOf_of_not_stores {i : Instr} {s : State} {y din v d : List Byte} {f : Bool} {n : BitVec 24}
    {j : Nat} (h : resultOf i (s.reg i.self) y din = .ok v f n d) (hj : i.stores s i.self j = false) :
    byteAt v j = byteAt (s.reg i.self) j := by
  have hlen := resultOf_length h
  cases i with
  | wrb r idx v8 =>
    simp only [resultOf] at h
    split at h <;> cases h
    rename_i hin
    have hne : idx ≠ j := by
      rintro rfl
      exact hin (by simpa [Instr.stores, Instr.self] using hj)
    simp [byteAt, List.getD_eq_getElem?_getD, List.getElem?_set_ne hne]
  | getbit r pos | rdb r idx =>
    simp only [resultOf] at h
    split at h <;> cases h
    rfl
  | cmpeq r | cmplt r | cmpgt r | cmple r | cmpge r | hexout r | hexoutx r | rank r | dump r | bits r =>
    cases h
    rfl
  | mov r | shr r k | shl r k | add r | sub r | mul r | div r | mod r | and r | or r | xor r | not r | hexin r
  | clr r =>
    exact byteAt_eq_beyond hlen (by simpa [Instr.stores, Instr.self] using hj)

/-- Every byte of either register that the command does not store to reads as before. -/
theorem memRead_finish_of_not_stores {i : Instr} {s : State} {q : Reg} {j : Nat} (h : i.stores s q j = false) :
    memRead (s.finish i.self (resultOf i (s.reg i.self) (s.otherReg i.self) s.din)) q j = memRead s q j := by
  cases hres : resultOf i (s.reg i.self) (s.otherReg i.self) s.din with
  | error e => exact memRead_answer s _ q j
  | ok v f n d =>
    rw [State.finish, memRead_answer, memRead, memRead]
    by_cases hq : q = i.self
    · subst hq
      rw [State.setReg_reg_self, byteAt_resultOf_of_not_stores hres h]
    · rw [State.setReg_reg_of_ne _ _ _ hq]

/-- Settles O10: a command ends in one of its two ways, and its result keeps the bytes it does not store to. -/
theorem everyCommandKeepsItsFrame : Obligations.EveryCommandKeepsItsFrame := by
  intro i s
  obtain ⟨t, hexec, hends⟩ := exec_ends i s
  refine ⟨t, hexec, hends.keepsOther, fun q j hstores => ?_, hends.port, hends.din, hends.answered⟩
  cases (exec_eq_result i s).symm.trans hexec
  exact memRead_finish_of_not_stores hstores

/-- The exchanged command names the exchanged register as self (R33). -/
theorem Instr.swap_self (i : Instr) : i.swap.self = i.self.other := by cases i <;> rfl

/-- The result of a command does not depend on which register is self. -/
theorem resultOf_swap (i : Instr) (x y din : List Byte) : resultOf i.swap x y din = resultOf i x y din := by
  cases i <;> rfl

theorem State.swap_reg (s : State) (r : Reg) : s.swap.reg r.other = s.reg r := by cases r <;> rfl

theorem State.swap_otherReg (s : State) (r : Reg) : s.swap.otherReg r.other = s.otherReg r := by cases r <;> rfl

theorem State.swap_finish (s : State) (r : Reg) (x : Result) :
    s.swap.finish r.other x = (s.finish r x).swap := by
  cases x with
  | error e => rfl
  | ok v f n d => cases r <;> rfl

/-- Settles O11: the result is the same, and it ends the exchanged command in the exchanged register. -/
theorem bothRolesFollowTheSameRules : Obligations.BothRolesFollowTheSameRules := by
  intro i s t hexec
  cases (exec_eq_result i s).symm.trans hexec
  rw [exec_eq_result, Instr.swap_self, resultOf_swap, State.swap_reg, State.swap_otherReg, State.swap_finish]
  rfl

end Sys2Proof.Machine
end

section
/-! SUPPORT. The comparator in numbers, and its laws (40_align_compare.md rules R45 to R52). -/

namespace Sys2Proof.Machine

/-- Settles O24: the comparator's verdict is the order of the two numbers. -/
theorem comparisonsReportTheNumericOrder : Obligations.ComparisonsReportTheNumericOrder := by
  intro r s
  refine ⟨exec_reportsOnly (i := .cmpeq r) ?eq, exec_reportsOnly (i := .cmplt r) ?lt,
    exec_reportsOnly (i := .cmpgt r) ?gt, exec_reportsOnly (i := .cmple r) ?le, exec_reportsOnly (i := .cmpge r) ?ge⟩
  case eq => rw [resultOf, eqv_eq_decide, Instr.self]
  case lt => rw [resultOf, cmpv_beq_lt, Instr.self]
  case gt => rw [resultOf, cmpv_beq_gt, Instr.self]
  case le => rw [resultOf, Instr.self, cmpv_beq_gt, ← decide_not, decide_eq_decide.2 Nat.not_lt]
  case ge => rw [resultOf, Instr.self, cmpv_beq_lt, ← decide_not, decide_eq_decide.2 Nat.not_lt]

/-- Settles O25: the laws are those of the order of the numbers; widening keeps the number, and a narrowed value stays
below a value with a nonzero byte in front of its width. -/
theorem comparatorLaws : Obligations.ComparatorLaws := by
  refine ⟨fun p q => ⟨eqv_comm p q, ?turned, ?equal⟩, fun N v hle => ?widened, fun N v i hN hi hne => ?narrowed⟩
  case turned => rw [cmpv_eq_compare, cmpv_eq_compare, Nat.compare_eq_lt, Nat.compare_eq_gt]
  case equal => rw [eqv_iff, cmpv_eq_compare, Nat.compare_eq_eq]
  case widened => exact (eqv_iff _ _).2 (val_align_of_le hle)
  case narrowed =>
    have hlt : val (align N v) < val v := val_lt_of_leading_byte_ne_zero (by rwa [align_length]) hne
    rw [eqv_eq_decide, decide_eq_false hlt.ne]

end Sys2Proof.Machine
end

section
/-! SUPPORT. The shifter in numbers and bit by bit, and its laws (41_shift.md rules R53 to R57). -/

namespace Sys2Proof.Machine

/-- Bit `p` of a right shift is bit `p + k` of the value. -/
theorem bit_shr (v : List Byte) (k p : Nat) : bit (shr v k) p = bit v (p + k) := by
  rw [bit_eq_testBit, bit_eq_testBit, val_shr, Nat.testBit_div_two_pow, Nat.add_comm]

/-- Bit `p` of a left shift is bit `p - k` of the value, 0 below `k`. -/
theorem bit_shl (v : List Byte) (k : Nat) {p : Nat} (hp : p < 8 * v.length) :
    bit (shl v k) p = (decide (k ≤ p) && bit v (p - k)) := by
  rw [bit_eq_testBit, bit_eq_testBit, val_shl, pow256, Nat.testBit_mod_two_pow, Nat.testBit_mul_two_pow]
  simp [hp]

/-- Settles O27: SHR and SHL write the shifter's value, whose number and bits are known. -/
theorem shiftsScaleByPowersOfTwo : Obligations.ShiftsScaleByPowersOfTwo := by
  refine fun r k s => ⟨?shr, ?shl⟩
  case shr =>
    obtain ⟨t, hexec, hframe, hself⟩ := exec_writesOnly (i := .shr r k) (s := s) rfl (shr_length _ k)
    exact ⟨t, hexec, hframe, hself ▸ val_shr (s.reg r) k, hself ▸ bit_shr (s.reg r) k⟩
  case shl =>
    obtain ⟨t, hexec, hframe, hself⟩ := exec_writesOnly (i := .shl r k) (s := s) rfl (shl_length _ k)
    refine ⟨t, hexec, hframe, ?_, fun p hp => hself ▸ bit_shl (s.reg r) k hp⟩
    rw [← pow256]
    exact hself ▸ val_shl (s.reg r) k

/-- A value with the number 0 is the zero value of its width. -/
theorem eq_zero_of_val {v : List Byte} (h : val v = 0) : v = zero v.length :=
  val_inj (zero_length _).symm (h.trans (val_zero _).symm)

theorem shl_shl (v : List Byte) (j k : Nat) : shl (shl v j) k = shl v (j + k) := by
  refine val_inj (by simp) ?_
  rw [val_shl, val_shl, val_shl, shl_length, Nat.mod_mul_mod, Nat.mul_assoc, ← Nat.pow_add]

theorem shr_shr (v : List Byte) (j k : Nat) : shr (shr v j) k = shr v (j + k) := by
  refine val_inj (by simp) ?_
  rw [val_shr, val_shr, val_shr, Nat.div_div_eq_div_mul, ← Nat.pow_add]

/-- A left shift by all the bits of the value, or more, multiplies by a multiple of the modulus. -/
theorem shl_eq_zero {v : List Byte} {k : Nat} (h : 8 * v.length ≤ k) : shl v k = zero v.length := by
  refine shl_length v k ▸ eq_zero_of_val ?_
  rw [val_shl, pow256]
  exact Nat.mod_eq_zero_of_dvd ((Nat.pow_dvd_pow 2 h).mul_left _)

/-- A right shift by all the bits of the value, or more, divides by more than its number. -/
theorem shr_eq_zero {v : List Byte} {k : Nat} (h : 8 * v.length ≤ k) : shr v k = zero v.length := by
  refine shr_length v k ▸ eq_zero_of_val ?_
  rw [val_shr]
  exact Nat.div_eq_of_lt ((val_lt_two_pow v).trans_le (Nat.pow_le_pow_right (by norm_num) h))

theorem shl_zero (v : List Byte) : shl v 0 = v :=
  val_inj (shl_length v 0) (by rw [val_shl, Nat.pow_zero, Nat.mul_one, Nat.mod_eq_of_lt (val_lt v)])

theorem shr_zero (v : List Byte) : shr v 0 = v :=
  val_inj (shr_length v 0) (by rw [val_shr, Nat.pow_zero, Nat.div_one])

/-- Settles O28: each law holds of the numbers, and a value is determined by its width and its number. -/
theorem shiftCountsActAsTheLawsSay : Obligations.ShiftCountsActAsTheLawsSay :=
  fun v => ⟨shl_zero v, shr_zero v, fun _ hk => ⟨shl_eq_zero hk, shr_eq_zero hk⟩,
    fun j k => ⟨shl_shl v j k, shr_shr v j k⟩⟩

end Sys2Proof.Machine
end

section
/-! SUPPORT. ADD, SUB and MUL in numbers (42_add_sub.md rules R59 to R65, 43_multiply.md rules R67 and R68). -/

namespace Sys2Proof.Machine

/-- ADD writes the sum over self. -/
theorem exec_add (r : Reg) (s : State) :
    ∃ t, exec (.add r) s = .next t ∧ WritesOnly r s t ∧ t.reg r = add (s.reg r) (s.otherReg r) :=
  exec_writesOnly (i := .add r) rfl (add_length _ _)

/-- SUB writes the difference over self. -/
theorem exec_sub (r : Reg) (s : State) :
    ∃ t, exec (.sub r) s = .next t ∧ WritesOnly r s t ∧ t.reg r = sub (s.reg r) (s.otherReg r) :=
  exec_writesOnly (i := .sub r) rfl (sub_length _ _)

/-- MUL writes the product over self. -/
theorem exec_mul (r : Reg) (s : State) :
    ∃ t, exec (.mul r) s = .next t ∧ WritesOnly r s t ∧ t.reg r = mul (s.reg r) (s.otherReg r) :=
  exec_writesOnly (i := .mul r) rfl (mul_length _ _)

/-- Settles O30: ADD writes `add_N` of self and other. -/
theorem addIsTheModularSum : Obligations.AddIsTheModularSum := by
  intro r s
  obtain ⟨t, hexec, hframe, hself⟩ := exec_add r s
  refine ⟨t, hexec, hframe, ?_⟩
  rw [hself, val_add, pow256]

/-- Settles O31: SUB writes `sub_N` of self and other, and negation is the additive inverse. -/
theorem subIsTheModularDifference : Obligations.SubIsTheModularDifference := by
  refine ⟨fun r s => ⟨decode_commandWord_of_wellFormed (i := .sub r) rfl, ?sub⟩, fun v => ⟨neg_length v, ?neg⟩⟩
  case sub =>
    obtain ⟨t, hexec, hframe, hself⟩ := exec_sub r s
    refine ⟨t, hexec, hframe, ?_⟩
    rw [hself, val_sub_int, pow256]
  case neg => rw [← pow256, val_neg]

/-- `(a + b) - b = a` at the width of `a`: the numbers are congruent modulo `256^N` and both below it (R65(b)). -/
theorem sub_add_cancel (a b : List Byte) : sub (add a b) b = a := by
  refine val_inj (by simp) (Int.natCast_inj.1 ?_)
  have ha := val_lt a
  rw [val_sub_int, val_add, add_length, Int.natCast_emod, Int.emod_sub_emod, Int.natCast_add, Int.add_sub_cancel]
  exact Int.emod_eq_of_lt (Int.natCast_nonneg _) (Int.ofNat_lt.2 ha)

/-- Settles O32: other is unchanged by ADD, so SUB takes away what was added. -/
theorem subUndoesAdd : Obligations.SubUndoesAdd := by
  intro r s
  obtain ⟨t, hadd, htframe, htself⟩ := exec_add r s
  obtain ⟨u, hsub, huframe, huself⟩ := exec_sub r t
  refine ⟨t, u, hadd, hsub, ?self, huframe.keepsOther.trans htframe.keepsOther⟩
  case self => rw [huself, htself, htframe.keepsOther, sub_add_cancel]

/-- Settles O33: MUL writes `mul_N` of self and other. -/
theorem mulIsTheModularProduct : Obligations.MulIsTheModularProduct := by
  refine fun r s => ⟨decode_commandWord_of_wellFormed (i := .mul r) rfl, ?_⟩
  obtain ⟨t, hexec, hframe, hself⟩ := exec_mul r s
  refine ⟨t, hexec, hframe, ?_⟩
  rw [hself, val_mul, pow256]

theorem add_of_val_eq_zero (a : List Byte) {b : List Byte} (h : val b = 0) : add a b = a :=
  val_inj (add_length a b) (by rw [val_add, h, Nat.add_zero, Nat.mod_eq_of_lt (val_lt a)])

theorem mul_of_val_eq_zero (a : List Byte) {b : List Byte} (h : val b = 0) : mul a b = zero a.length :=
  val_inj (by simp) (by rw [val_mul, h, Nat.mul_zero, Nat.zero_mod, val_zero])

theorem mul_of_val_eq_one (a : List Byte) {b : List Byte} (h : val b = 1) : mul a b = a :=
  val_inj (mul_length a b) (by rw [val_mul, h, Nat.mul_one, Nat.mod_eq_of_lt (val_lt a)])

/-- Settles O35: the identities hold of `add_N` and `mul_N`. -/
theorem zeroAndOneActAsIdentities : Obligations.ZeroAndOneActAsIdentities := by
  intro r s
  obtain ⟨t, hadd, -, hsum⟩ := exec_add r s
  obtain ⟨u, hmul, -, hproduct⟩ := exec_mul r s
  exact ⟨fun h => ⟨⟨t, hadd, hsum.trans (add_of_val_eq_zero _ h)⟩, ⟨u, hmul, hproduct.trans (mul_of_val_eq_zero _ h)⟩⟩,
    fun h => ⟨u, hmul, hproduct.trans (mul_of_val_eq_one _ h)⟩⟩

end Sys2Proof.Machine
end

section
/-! SUPPORT. The internal checked multiply (43_multiply.md rules R69 and R70). -/

namespace Sys2Proof.Machine

/-- Where the product fits, the checked multiply is the plain one. -/
theorem mulc_eq_mul {l r : List Byte} (h : r.length = l.length) (hfit : val l * val r < 256 ^ l.length) :
    mulc l r = (false, mul l r) := by
  obtain ⟨hlen, hval⟩ := mulc_val h hfit
  refine Prod.ext ?overflow (val_inj (by simp [hlen]) ?product)
  case overflow => rw [mulc_ovf h, decide_eq_false hfit.not_ge]
  case product => rw [hval, val_mul, Nat.mod_eq_of_lt hfit]

/-- The walk passes over positions with no bit set. -/
theorem mulcFrom_skip (l r : List Byte) (n i : Nat) (acc : List Byte) (j : Nat)
    (h : ∀ p, j ≤ p → p < j + i → bit r p = false) :
    mulcFrom l r (i + n) j acc = mulcFrom l r n (j + i) acc := by
  induction i generalizing j with
  | zero => rw [Nat.zero_add, Nat.add_zero]
  | succ i ih =>
    rw [Nat.add_right_comm, mulcFrom, h j le_rfl (by omega), if_neg Bool.false_ne_true,
      ih (j + 1) fun p h₁ h₂ => h p (by omega) (by omega)]
    congr 1
    omega

/-- One set bit, at `i`: the rank check decides, and the product is a left shift (R70(d)). -/
theorem mulc_of_val_two_pow (l : List Byte) {r : List Byte} {i : Nat} (hi : i < 8 * l.length) (hr : val r = 2 ^ i) :
    mulc l r = if 8 * l.length < rank l + i then (true, zero l.length) else (false, shl l i) := by
  have hbit : ∀ p, bit r p = decide (i = p) := fun p => by rw [bit_eq_testBit, hr, Nat.testBit_two_pow]
  have hsum : add (zero l.length) (shl l i) = shl l i := by
    refine val_inj (by simp) ?_
    rw [val_add, val_zero, Nat.zero_add, zero_length, ← shl_length l i, Nat.mod_eq_of_lt (val_lt _)]
  obtain ⟨n, hn⟩ : ∃ n, 8 * l.length = i + (n + 1) := ⟨8 * l.length - (i + 1), by omega⟩
  have hbelow : ∀ p, 0 ≤ p → p < 0 + i → bit r p = false := fun p _ hp => by
    rw [hbit, decide_eq_false (by omega)]
  have habove : ∀ p, i + 1 ≤ p → bit r p = false := fun p hp => by rw [hbit, decide_eq_false (by omega)]
  have hnotless : (cmpv (shl l i) (zero l.length) == .lt) = false := by
    rw [cmpv_beq_lt, val_zero, decide_eq_false (Nat.not_lt_zero _)]
  rw [mulc, hn, mulcFrom_skip l r (n + 1) i _ 0 hbelow, Nat.zero_add, mulcFrom, hbit, decide_eq_true rfl, if_pos rfl,
    hsum, hnotless, if_neg Bool.false_ne_true, mulcFrom_none l r n (i + 1) _ habove, hn]

/-- Settles O34: the flag and the product in numbers, the zero cases as products that fit, and one set bit. -/
theorem checkedMultiplyIsExact : Obligations.CheckedMultiplyIsExact := by
  refine fun l r hlen => ⟨?overflow, fun hno => ?exact, fun hzero => ?zero, fun i hi hr => mulc_of_val_two_pow l hi hr⟩
  case overflow => rw [mulc_ovf hlen, decide_eq_true_iff, pow256]
  case exact =>
    have hfit : val l * val r < 256 ^ l.length := by
      rw [mulc_ovf hlen, decide_eq_false_iff_not] at hno
      exact Nat.lt_of_not_ge hno
    exact ⟨congrArg Prod.snd (mulc_eq_mul hlen hfit), (mulc_val hlen hfit).2⟩
  case zero =>
    have hproduct : val l * val r = 0 := by
      obtain h | h := hzero
      · rw [h, val_zero, Nat.zero_mul]
      · rw [h, val_zero, Nat.mul_zero]
    rw [mulc_eq_mul hlen (by rw [hproduct]; positivity), eq_zero_of_val (v := mul l r), mul_length]
    rw [val_mul, hproduct, Nat.zero_mod]

end Sys2Proof.Machine
end

section
/-! SUPPORT. DIV and MOD in numbers, and the end of the restoring iterations (44_divide_modulo.md rules R73 to R79). -/

namespace Sys2Proof.Machine

theorem val_bytesOf_of_le {v : List Byte} {n : Nat} (h : n ≤ val v) : val (bytesOf v.length n) = n := by
  rw [val_bytesOf, Nat.mod_eq_of_lt (h.trans_lt (val_lt v))]

/-- For a nonzero divisor DIV writes the floor of the exact quotient over self. -/
theorem exec_div {r : Reg} {s : State} (h : val (s.otherReg r) ≠ 0) :
    ∃ t, exec (.div r) s = .next t ∧ WritesOnly r s t ∧ val (t.reg r) = val (s.reg r) / val (s.otherReg r) := by
  obtain ⟨t, hexec, hframe, hself⟩ := exec_writesOnly (i := .div r) (if_neg h) (bytesOf_length _ _)
  exact ⟨t, hexec, hframe, hself ▸ val_bytesOf_of_le (Nat.div_le_self _ _)⟩

/-- For a nonzero divisor MOD writes the exact remainder over self. -/
theorem exec_mod {r : Reg} {s : State} (h : val (s.otherReg r) ≠ 0) :
    ∃ t, exec (.mod r) s = .next t ∧ WritesOnly r s t ∧ val (t.reg r) = val (s.reg r) % val (s.otherReg r) := by
  obtain ⟨t, hexec, hframe, hself⟩ := exec_writesOnly (i := .mod r) (if_neg h) (bytesOf_length _ _)
  exact ⟨t, hexec, hframe, hself ▸ val_bytesOf_of_le (Nat.mod_le _ _)⟩

/-- Settles O37: the quotient fits the width of self. -/
theorem divIsTheFloorQuotient : Obligations.DivIsTheFloorQuotient :=
  fun r _ => ⟨decode_commandWord_of_wellFormed (i := .div r) rfl, exec_div⟩

/-- Settles O38: the remainder fits the width of self. -/
theorem modIsTheRemainder : Obligations.ModIsTheRemainder :=
  fun r _ => ⟨decode_commandWord_of_wellFormed (i := .mod r) rfl, exec_mod⟩

/-- Settles O39: DIV and MOD give the quotient and the remainder of the numbers. -/
theorem quotientAndRemainderRebuildTheDividend : Obligations.QuotientAndRemainderRebuildTheDividend := by
  intro r s h
  obtain ⟨q, hdiv, -, hquotient⟩ := exec_div h
  obtain ⟨m, hmod, -, hremainder⟩ := exec_mod h
  refine ⟨q, m, hdiv, hmod, ?_, ?_⟩
  · rw [hquotient, hremainder, Nat.div_add_mod]
  · rw [hremainder]
    exact Nat.mod_lt _ (Nat.pos_of_ne_zero h)

/-- Settles O40: with no iteration left the invariant is the division of the numbers, which has one quotient and one
remainder. -/
theorem dividerEndsWithTheExactRemainder : Obligations.DividerEndsWithTheExactRemainder := by
  intro a d hlen hd
  have hpos := Nat.pos_of_ne_zero hd
  have hinv := divIter_inv hlen _ _ (divStart_inv (a := a) hpos)
  generalize divIter d (8 * a.length) (divStart a) = t at hinv ⊢
  have hdivision : val t.rem + val d * val t.res = val a := by rw [hinv.sum, Nat.mul_comm, Nat.add_comm]
  have hlt : val t.rem < val d := by simpa using hinv.rem_lt
  obtain ⟨hquotient, hremainder⟩ := (Nat.div_mod_unique hpos).2 ⟨hdivision, hlt⟩
  exact ⟨hremainder.symm, hquotient.symm⟩

end Sys2Proof.Machine
end

section
/-! SUPPORT. A register byte by byte: what RDB reads after DUMP and after WRB, and a value loaded by one WRB for each
byte (20_memory.md rules R23 and R28, 70_reset_and_hazards.md rule R115). -/

namespace Sys2Proof.Machine

/-- RDB at an index of self reports the byte, zero-extended, and writes nothing (R94). -/
theorem exec_rdb_of_lt {r : Reg} {idx : Nat} {s : State} (h : idx < s.width r) :
    ∃ t, exec (.rdb r idx) s = .next t ∧
      ReportsOnly s t { status := .ok, flag := false, val := (memRead s r idx).setWidth 24, dout := [] } :=
  (rdbReadsOneByte r idx s).2.1 h

/-- Settles O53: DUMP reports self and leaves it, so RDB reads the items one by one. -/
theorem readingByteByByteGivesTheDump : Obligations.ReadingByteByByteGivesTheDump := by
  intro r s _
  obtain ⟨d, hdump, hdumped⟩ := exec_reportsOnly (i := .dump r) (s := s) rfl
  have hself : d.reg r = s.reg r := State.reg_congr hdumped.keepsA hdumped.keepsB r
  refine ⟨d, _, hdump, hdumped.answers.resp, rfl, fun i hi => ?_⟩
  obtain ⟨t, hread, hreport⟩ := exec_rdb_of_lt (s := d) (r := r) (idx := i) (by rwa [State.width, hself])
  refine ⟨t, _, hread, hreport.answers.resp, rfl, ?_⟩
  rw [memRead, hself, BitVec.toNat_setWidth_of_le (by norm_num)]
  rfl

/-- Settles O54: WRB leaves self with the byte at the index, and RDB reports it. -/
theorem aWrittenByteIsReadBack : Obligations.AWrittenByteIsReadBack := by
  intro r idx v8 s h
  have hread := exec_rdb_of_lt (r := r) (idx := idx) (s := (memWrite s r idx v8).answer okResponse) (by simpa using h)
  rw [memRead_answer, memRead_memWrite_same s r h] at hread
  obtain ⟨u, hu⟩ := hread
  exact ⟨_, u, exec_wrb_of_lt v8 h, hu⟩

/-- The command that writes byte `i` of `v`, as the statement on loading a value issues it. -/
def loadCommand (r : Reg) (v : List Byte) (i : Nat) : Command :=
  { word := commandWord 0x42 r (i * 256 + (byteAt v i).toNat), din := [] }

/-- A step on the command that writes byte `i` of `v` writes that byte and leaves the commands behind it. -/
theorem step_loadCommand {r : Reg} {v : List Byte} {i : Nat} {s : State} {cs : List Command}
    (hp : s.port = loadCommand r v i :: cs) (hi : i < s.width r) (hidx : i < 65536) :
    ∃ t, step s = .next t ∧ t.port = cs ∧ t.otherReg r = s.otherReg r ∧ t.width r = s.width r ∧
      memRead t r i = byteAt v i ∧ ∀ j, j ≠ i → memRead t r j = memRead s r j := by
  have hdecode := decode_commandWord_of_wellFormed (i := .wrb r i (byteAt v i)) (decide_eq_true hidx)
  have htaken : ∀ q, ({ s with port := cs, din := [] } : State).reg q = s.reg q := State.reg_congr rfl rfl
  obtain ⟨t, hexec, hframe, hwritten, hkept⟩ :=
    (wrbWritesOneByte r i (byteAt v i) { s with port := cs, din := [] }).2.1 (by rwa [State.width, htaken])
  refine ⟨t, (step_of_decode s hp hdecode).trans hexec, hframe.answers.port, ?other, ?width, hwritten,
    fun j hj => ?bytes⟩
  case other => exact hframe.keepsOther.trans (htaken r.other)
  case width => exact hframe.width.trans (congrArg List.length (htaken r))
  case bytes => rw [hkept r j (by simpa using hj), memRead, htaken, memRead]

/-- The run over the load commands from index `k` on completes a register that holds the bytes of `v` below `k`. -/
theorem run_loadCommands {r : Reg} {v : List Byte} (hv : v.length ≤ 65535) (n k : Nat) {s : State}
    (hn : k + n = v.length) (hw : s.width r = v.length) (hp : s.port = (List.range' k n).map (loadCommand r v))
    (hloaded : ∀ j, j < k → memRead s r j = byteAt v j) :
    ∃ t, Host.Core.run Sys2Proof.core n s = .next t ∧ t.reg r = v ∧ t.otherReg r = s.otherReg r ∧ t.port = [] := by
  induction n generalizing k s with
  | zero => exact ⟨s, rfl, eq_of_byteAt hw fun j hj => hloaded j ((hj.trans_eq hw).trans_eq hn.symm), rfl, hp⟩
  | succ n ih =>
    rw [List.range'_succ, List.map_cons] at hp
    obtain ⟨u, hstep, hport, hother, hwidth, hwritten, hkept⟩ := step_loadCommand hp (by omega) (by omega)
    have hbytes : ∀ j, j < k + 1 → memRead u r j = byteAt v j := fun j hj => by
      obtain hlt | rfl := Nat.lt_succ_iff_lt_or_eq.1 hj
      · rw [hkept j hlt.ne, hloaded j hlt]
      · exact hwritten
    obtain ⟨t, hrun, hself, hother', hempty⟩ := ih (k + 1) (by omega) (hwidth.trans hw) hport hbytes
    exact ⟨t, (run_succ hstep).trans hrun, hself, hother'.trans hother, hempty⟩

/-- Settles O55: the commands are the load commands from index 0 on, and no byte has to be loaded before them. -/
theorem anyValueCanBeLoadedByteByByte : Obligations.AnyValueCanBeLoadedByteByByte := by
  intro r s v hw hv
  have hport : (List.range v.length).map (loadCommand r v) = (List.range' 0 v.length).map (loadCommand r v) := by
    rw [List.range_eq_range']
  have hreg : ∀ q, ({ s with port := (List.range v.length).map (loadCommand r v) } : State).reg q = s.reg q :=
    State.reg_congr rfl rfl
  obtain ⟨t, hrun, hself, hother, hempty⟩ := run_loadCommands hv v.length 0 (Nat.zero_add _)
    ((congrArg List.length (hreg r)).trans hw.symm) hport nofun
  exact ⟨t, hrun, hself, hother.trans (hreg r.other), hempty⟩

end Sys2Proof.Machine
end

section
/-! SUPPORT. Reset and the first command after it (70_reset_and_hazards.md rules R113 and R114), and the numbers of the
status codes (30_encoding.md rule R36). -/

namespace Sys2Proof.Machine

/-- The state after reset is one of an instance where the widths are (R5). -/
theorem State.resetOf_wf {S T : Nat} (hS : 1 ≤ S) (hS' : S ≤ 65535) (hT : 1 ≤ T) (hT' : T ≤ 65535) :
    (State.resetOf S T).wf = true := by
  refine (State.wf_iff _).2 ⟨(Memory.wf_iff _).2 ?_, (Memory.wf_iff _).2 ?_, Nat.zero_le _, nofun⟩
  · rw [State.resetOf_A, zero_length]
    exact ⟨hS, hS'⟩
  · rw [State.resetOf_B, zero_length]
    exact ⟨hT, hT'⟩

/-- Settles O2: the widths of Config are widths of an instance. -/
theorem resetStatesAreStatesOfAnInstance : Obligations.ResetStatesAreStatesOfAnInstance :=
  ⟨fun _ _ => State.resetOf_wf, rfl, State.resetOf_wf (by decide) (by decide) (by decide) (by decide)⟩

/-- Settles O16: the table of codes, value by value. -/
theorem statusCodesAreZeroToFour : Obligations.StatusCodesAreZeroToFour := by
  refine ⟨rfl, rfl, rfl, rfl, rfl, fun x => ?_⟩
  cases x <;> decide

/-- The first command after reset runs in the state after reset. -/
theorem step_first {S T : Nat} {w : Word} {i : Instr} (h : decode w = .ok i) :
    step { State.resetOf S T with port := [{ word := w, din := [] }] } = exec i (State.resetOf S T) :=
  step_of_decode { State.resetOf S T with port := [{ word := w, din := [] }] } rfl h

/-- Settles O56: both registers are zero, so DIV has a zero divisor, CMPEQ two equal numbers and RANK no set bit. -/
theorem firstCommandsAfterReset : Obligations.FirstCommandsAfterReset := by
  intro S T
  rw [step_first (i := .div .A) (by decide), step_first (i := .cmpeq .A) (by decide),
    step_first (i := .rank .A) (by decide)]
  have hA : (State.resetOf S T).reg .A = zero S := State.resetOf_A S T
  have hB : (State.resetOf S T).otherReg .A = zero T := State.resetOf_B S T
  refine ⟨exec_divideByZeroError ?div, exec_reportsOnly ?cmpeq, exec_reportsOnly ?rank⟩
  case div => exact if_pos (by rw [Instr.self, hB, val_zero])
  case cmpeq =>
    rw [resultOf, Instr.self, hA, hB, (eqv_iff _ _).2 (by rw [val_zero, val_zero])]
  case rank =>
    have hrank : rank (zero S) = 0 := Nat.le_zero.1 ((rank_le_iff _ 0).2 (by rw [val_zero]; norm_num))
    rw [resultOf, Instr.self, hA, hrank]
    rfl

end Sys2Proof.Machine
end
